-- ==== Sys2Proof/Word.lean ====
section
/-! DEFINITION. The word types of the machine (spec 00_scope.md R6, R9). All values are unsigned. -/

namespace Sys2Proof

/-- XLEN = 8: a general register, a memory cell, a timer, an immediate `kk`. -/
abbrev Byte := BitVec 8

/-- A 4-bit opcode field: a register index `x` or `y`, a sprite height `n`, a selector. -/
abbrev Nibble := BitVec 4

/-- ALEN = 12: the immediate `nnn`. -/
abbrev Addr12 := BitVec 12

/-- 16 bits: the opcode, PC, I, a stack slot, FAULT_PC, FAULT_INFO. -/
abbrev Word16 := BitVec 16

end Sys2Proof
end

