-- ==== Sys2Proof/Syntax.lean ====
section
/-! DEFINITION. The instructions: one constructor per row of spec/opcode_table.json (30_encoding.md R83 to R90).

A row's don't-care bits (R90) are kept as a last field `ign`: no rule but the fault entry's copy of the
opcode into FAULT_INFO (R240, STACK_UNDERFLOW) reads them. -/

namespace Sys2Proof

inductive Instr where
  /-- 0x0**0, clear-screen (R200). -/
  | cls (ign : Byte)
  /-- 0x0**E, return (R130). -/
  | ret (ign : Byte)
  /-- 1nnn, jump (R131). -/
  | jp (nnn : Addr12)
  /-- 2nnn, call (R132). -/
  | call (nnn : Addr12)
  /-- 3xkk, skip-if-equal-immediate (R134). -/
  | seImm (x : Nibble) (kk : Byte)
  /-- 4xkk, skip-if-not-equal-immediate (R135). -/
  | sneImm (x : Nibble) (kk : Byte)
  /-- 5xy*, skip-if-registers-equal (R136). -/
  | seReg (x y : Nibble) (ign : Nibble)
  /-- 6xkk, load-immediate (R151). -/
  | ldImm (x : Nibble) (kk : Byte)
  /-- 7xkk, add-immediate (R152). -/
  | addImm (x : Nibble) (kk : Byte)
  /-- 8xy0, register-to-register copy (R153). -/
  | ldReg (x y : Nibble)
  /-- 8xy1 (R154). -/
  | orReg (x y : Nibble)
  /-- 8xy2 (R155). -/
  | andReg (x y : Nibble)
  /-- 8xy3 (R156). -/
  | xorReg (x y : Nibble)
  /-- 8xy4, add-registers (R157). -/
  | addReg (x y : Nibble)
  /-- 8xy5, subtract Vx - Vy (R158). -/
  | subReg (x y : Nibble)
  /-- 8xy7, reverse-subtract Vy - Vx (R159). -/
  | subnReg (x y : Nibble)
  /-- 8x*6, shift-right (R160). -/
  | shr (x : Nibble) (ign : Nibble)
  /-- 8x*E, shift-left (R161). -/
  | shl (x : Nibble) (ign : Nibble)
  /-- 9xy*, skip-if-registers-not-equal (R137). -/
  | sneReg (x y : Nibble) (ign : Nibble)
  /-- Annn, set-index (R180). -/
  | ldI (nnn : Addr12)
  /-- Bnnn, jump-with-offset (R133). -/
  | jpV0 (nnn : Addr12)
  /-- Cxkk, random-and (R162). -/
  | rnd (x : Nibble) (kk : Byte)
  /-- Dxyn, draw-sprite (R201). -/
  | drw (x y n : Nibble)
  /-- Ex*E, skip-if-key-pressed (R220). -/
  | skp (x : Nibble) (ign : Nibble)
  /-- Ex*1, skip-if-key-not-pressed (R221). -/
  | sknp (x : Nibble) (ign : Nibble)
  /-- Fx07, get-delay-timer (R223). -/
  | ldVxDT (x : Nibble)
  /-- Fx0A, wait-for-key (R222). -/
  | ldVxK (x : Nibble)
  /-- Fx15, set-delay-timer (R224). -/
  | ldDTVx (x : Nibble)
  /-- Fx18, set-sound-timer (R225). -/
  | ldSTVx (x : Nibble)
  /-- Fx1E, add-to-index (R181). -/
  | addIVx (x : Nibble)
  /-- Fx29, set-index-to-glyph (R182). -/
  | ldFVx (x : Nibble)
  /-- Fx33, store-BCD (R183). -/
  | ldBVx (x : Nibble)
  /-- Fx55, register-dump (R184). -/
  | ldMemVx (x : Nibble)
  /-- Fx65, register-load (R185). -/
  | ldVxMem (x : Nibble)
  /-- Unmapped word of family 0x0: no-op (R116); `sel` is the bottom nibble. -/
  | nop0 (ign : Byte) (sel : Nibble)
  /-- Unmapped word of family 0x8: no-op (R116). -/
  | nop8 (ign : Byte) (sel : Nibble)
  /-- Unmapped word of family 0xE: no-op (R116). -/
  | nopE (ign : Byte) (sel : Nibble)
  /-- Unmapped word of family 0xF: no-op (R116); `sel` is the bottom byte. -/
  | nopF (ign : Nibble) (sel : Byte)
  deriving DecidableEq, Repr

end Sys2Proof
end

