-- ==== Sys2Proof/WellFormed.lean ====
section
/-! DEFINITION. Which terms of `Instr` are instructions: a no-op row holds only the selectors that
no other row of its family maps (30_encoding.md R86 to R89, 40_cycle.md R116). Every field of every other
constructor is legal at every value (R84). -/

namespace Sys2Proof

/-- R86: the mapped bottom nibbles of family 0x0. -/
def mappedSel0 : List Nibble := [0x0, 0xE]

/-- R87: the mapped bottom nibbles of family 0x8. -/
def mappedSel8 : List Nibble := [0x0, 0x1, 0x2, 0x3, 0x4, 0x5, 0x6, 0x7, 0xE]

/-- R88: the mapped bottom nibbles of family 0xE. -/
def mappedSelE : List Nibble := [0xE, 0x1]

/-- R89: the mapped bottom bytes of family 0xF. -/
def mappedSelF : List Byte := [0x07, 0x0A, 0x15, 0x18, 0x1E, 0x29, 0x33, 0x55, 0x65]

def Instr.wellFormed : Instr → Bool
  | .nop0 _ sel => !mappedSel0.contains sel
  | .nop8 _ sel => !mappedSel8.contains sel
  | .nopE _ sel => !mappedSelE.contains sel
  | .nopF _ sel => !mappedSelF.contains sel
  | .cls _ | .ret _ | .jp _ | .call _ | .seImm _ _ | .sneImm _ _ | .seReg _ _ _ | .ldImm _ _
  | .addImm _ _ | .ldReg _ _ | .orReg _ _ | .andReg _ _ | .xorReg _ _ | .addReg _ _
  | .subReg _ _ | .subnReg _ _ | .shr _ _ | .shl _ _ | .sneReg _ _ _ | .ldI _ | .jpV0 _
  | .rnd _ _ | .drw _ _ _ | .skp _ _ | .sknp _ _ | .ldVxDT _ | .ldVxK _ | .ldDTVx _
  | .ldSTVx _ | .addIVx _ | .ldFVx _ | .ldBVx _ | .ldMemVx _ | .ldVxMem _ => true

end Sys2Proof
end

