-- ==== Sys2Proof/Decode.lean ====
section
/-! DEFINITION. From opcode words to instructions and back (30_encoding.md R80 to R91).
Every one of the 65536 words decodes (R91); only a byte string shorter than one opcode is rejected. -/

namespace Sys2Proof

/-! ## Fields (R11, R82) -/

def opFam (op : Word16) : Nibble := op.extractLsb' 12 4
def opX (op : Word16) : Nibble := op.extractLsb' 8 4
def opY (op : Word16) : Nibble := op.extractLsb' 4 4
def opN (op : Word16) : Nibble := op.extractLsb' 0 4
def opKK (op : Word16) : Byte := op.extractLsb' 0 8
def opNNN (op : Word16) : Addr12 := op.extractLsb' 0 12

/-- Bits 11:4, which formats Z and (as a whole) the no-op rows do not examine (R83, R90). -/
def opMid (op : Word16) : Byte := op.extractLsb' 4 8

/-! ## Decoding (R81, R85 to R90) -/

/-- Family 0x0: the bottom nibble selects (R86). -/
def decode0 (op : Word16) : Instr :=
  match (opN op).toNat with
  | 0x0 => .cls (opMid op)
  | 0xE => .ret (opMid op)
  | _ => .nop0 (opMid op) (opN op)

/-- Family 0x8: the bottom nibble selects (R87). -/
def decode8 (op : Word16) : Instr :=
  match (opN op).toNat with
  | 0x0 => .ldReg (opX op) (opY op)
  | 0x1 => .orReg (opX op) (opY op)
  | 0x2 => .andReg (opX op) (opY op)
  | 0x3 => .xorReg (opX op) (opY op)
  | 0x4 => .addReg (opX op) (opY op)
  | 0x5 => .subReg (opX op) (opY op)
  | 0x6 => .shr (opX op) (opY op)
  | 0x7 => .subnReg (opX op) (opY op)
  | 0xE => .shl (opX op) (opY op)
  | _ => .nop8 (opMid op) (opN op)

/-- Family 0xE: the bottom nibble selects (R88). -/
def decodeE (op : Word16) : Instr :=
  match (opN op).toNat with
  | 0xE => .skp (opX op) (opY op)
  | 0x1 => .sknp (opX op) (opY op)
  | _ => .nopE (opMid op) (opN op)

/-- Family 0xF: the bottom byte selects (R89). -/
def decodeF (op : Word16) : Instr :=
  match (opKK op).toNat with
  | 0x07 => .ldVxDT (opX op)
  | 0x0A => .ldVxK (opX op)
  | 0x15 => .ldDTVx (opX op)
  | 0x18 => .ldSTVx (opX op)
  | 0x1E => .addIVx (opX op)
  | 0x29 => .ldFVx (opX op)
  | 0x33 => .ldBVx (opX op)
  | 0x55 => .ldMemVx (opX op)
  | 0x65 => .ldVxMem (opX op)
  | _ => .nopF (opX op) (opKK op)

/-- R85: the top nibble selects one of 16 families; the last arm is family 0xF. -/
def decode (op : Word16) : Instr :=
  match (opFam op).toNat with
  | 0x0 => decode0 op
  | 0x1 => .jp (opNNN op)
  | 0x2 => .call (opNNN op)
  | 0x3 => .seImm (opX op) (opKK op)
  | 0x4 => .sneImm (opX op) (opKK op)
  | 0x5 => .seReg (opX op) (opY op) (opN op)
  | 0x6 => .ldImm (opX op) (opKK op)
  | 0x7 => .addImm (opX op) (opKK op)
  | 0x8 => decode8 op
  | 0x9 => .sneReg (opX op) (opY op) (opN op)
  | 0xA => .ldI (opNNN op)
  | 0xB => .jpV0 (opNNN op)
  | 0xC => .rnd (opX op) (opKK op)
  | 0xD => .drw (opX op) (opY op) (opN op)
  | 0xE => decodeE op
  | _ => decodeF op

/-! ## Bytes (R52, R80): one length, the high byte first -/

/-- The word of two bytes, `hi` from the lower address. -/
def wordOfBytes (hi lo : Byte) : Word16 := hi ++ lo

def highByte (w : Word16) : Byte := w.extractLsb' 8 8
def lowByte (w : Word16) : Byte := w.extractLsb' 0 8

/-- Why a byte string is no instruction. -/
inductive DecodeError where
  /-- Fewer than the two bytes of an opcode (R80). -/
  | truncated
  deriving DecidableEq, Repr

/-- Reads one instruction from a byte string and gives the rest. -/
def decodeBytes : List Byte → Except DecodeError (Instr × List Byte)
  | hi :: lo :: rest => .ok (decode (wordOfBytes hi lo), rest)
  | [_] => .error .truncated
  | [] => .error .truncated

/-- The bytes of a word as memory holds it. -/
def bytesOfWord (w : Word16) : List Byte := [highByte w, lowByte w]

/-- The instruction in the low `nbits` bits of `w` (bits above are 0), laid out as memory holds it. -/
def decodeTableWord (nbits w : Nat) : Option Instr :=
  if nbits ≤ 16 then
    match decodeBytes (bytesOfWord (BitVec.ofNat 16 (w % 2 ^ nbits))) with
    | .ok (i, _) => some i
    | .error _ => none
  else none

/-! ## Encoding, by the formats of R83 -/

/-- Format A: fam, nnn. -/
def fmtA (fam : Nibble) (nnn : Addr12) : Word16 := fam ++ nnn

/-- Formats XI and XS8: fam, x, kk. -/
def fmtXI (fam x : Nibble) (kk : Byte) : Word16 := (fam ++ x : Byte) ++ kk

/-- Formats XY, XYS, XYN and XS4: fam, x, y, n. -/
def fmtXYN (fam x y n : Nibble) : Word16 := (fam ++ x : Byte) ++ (y ++ n : Byte)

/-- Format Z, and the no-op rows of the families with a bottom-nibble selector: fam, bits 11:4, selector. -/
def fmtZ (fam : Nibble) (mid : Byte) (sel : Nibble) : Word16 := fam ++ (mid ++ sel : Addr12)

/-- The word of an instruction, its ignored bits as the term holds them. -/
def encode : Instr → Word16
  | .cls ign => fmtZ 0x0#4 ign 0x0#4
  | .ret ign => fmtZ 0x0#4 ign 0xE#4
  | .jp nnn => fmtA 0x1#4 nnn
  | .call nnn => fmtA 0x2#4 nnn
  | .seImm x kk => fmtXI 0x3#4 x kk
  | .sneImm x kk => fmtXI 0x4#4 x kk
  | .seReg x y ign => fmtXYN 0x5#4 x y ign
  | .ldImm x kk => fmtXI 0x6#4 x kk
  | .addImm x kk => fmtXI 0x7#4 x kk
  | .ldReg x y => fmtXYN 0x8#4 x y 0x0#4
  | .orReg x y => fmtXYN 0x8#4 x y 0x1#4
  | .andReg x y => fmtXYN 0x8#4 x y 0x2#4
  | .xorReg x y => fmtXYN 0x8#4 x y 0x3#4
  | .addReg x y => fmtXYN 0x8#4 x y 0x4#4
  | .subReg x y => fmtXYN 0x8#4 x y 0x5#4
  | .subnReg x y => fmtXYN 0x8#4 x y 0x7#4
  | .shr x ign => fmtXYN 0x8#4 x ign 0x6#4
  | .shl x ign => fmtXYN 0x8#4 x ign 0xE#4
  | .sneReg x y ign => fmtXYN 0x9#4 x y ign
  | .ldI nnn => fmtA 0xA#4 nnn
  | .jpV0 nnn => fmtA 0xB#4 nnn
  | .rnd x kk => fmtXI 0xC#4 x kk
  | .drw x y n => fmtXYN 0xD#4 x y n
  | .skp x ign => fmtXYN 0xE#4 x ign 0xE#4
  | .sknp x ign => fmtXYN 0xE#4 x ign 0x1#4
  | .ldVxDT x => fmtXI 0xF#4 x 0x07#8
  | .ldVxK x => fmtXI 0xF#4 x 0x0A#8
  | .ldDTVx x => fmtXI 0xF#4 x 0x15#8
  | .ldSTVx x => fmtXI 0xF#4 x 0x18#8
  | .addIVx x => fmtXI 0xF#4 x 0x1E#8
  | .ldFVx x => fmtXI 0xF#4 x 0x29#8
  | .ldBVx x => fmtXI 0xF#4 x 0x33#8
  | .ldMemVx x => fmtXI 0xF#4 x 0x55#8
  | .ldVxMem x => fmtXI 0xF#4 x 0x65#8
  | .nop0 ign sel => fmtZ 0x0#4 ign sel
  | .nop8 ign sel => fmtZ 0x8#4 ign sel
  | .nopE ign sel => fmtZ 0xE#4 ign sel
  | .nopF ign sel => fmtXI 0xF#4 ign sel

/-- The bytes of an instruction as memory holds them. -/
def encodeBytes (i : Instr) : List Byte := bytesOfWord (encode i)

/-! ## The opcode table's masks (R81, R83, R90): a second description, row by row -/

/-- The bits that select the row (mask) and their value (pattern). A no-op row's mask is that of its
family's mapped rows: its selector is what makes it unmapped, so its pattern holds the selector. -/
def selectMask : Instr → Word16
  | .cls _ | .ret _ | .nop0 _ _ => 0xF00F
  | .ldReg _ _ | .orReg _ _ | .andReg _ _ | .xorReg _ _ | .addReg _ _ | .subReg _ _
  | .subnReg _ _ | .shr _ _ | .shl _ _ | .nop8 _ _ => 0xF00F
  | .skp _ _ | .sknp _ _ | .nopE _ _ => 0xF00F
  | .ldVxDT _ | .ldVxK _ | .ldDTVx _ | .ldSTVx _ | .addIVx _ | .ldFVx _ | .ldBVx _
  | .ldMemVx _ | .ldVxMem _ | .nopF _ _ => 0xF0FF
  | .jp _ | .call _ | .seImm _ _ | .sneImm _ _ | .seReg _ _ _ | .ldImm _ _ | .addImm _ _
  | .sneReg _ _ _ | .ldI _ | .jpV0 _ | .rnd _ _ | .drw _ _ _ => 0xF000

def selectPattern : Instr → Word16
  | .cls _ => 0x0000
  | .ret _ => 0x000E
  | .jp _ => 0x1000
  | .call _ => 0x2000
  | .seImm _ _ => 0x3000
  | .sneImm _ _ => 0x4000
  | .seReg _ _ _ => 0x5000
  | .ldImm _ _ => 0x6000
  | .addImm _ _ => 0x7000
  | .ldReg _ _ => 0x8000
  | .orReg _ _ => 0x8001
  | .andReg _ _ => 0x8002
  | .xorReg _ _ => 0x8003
  | .addReg _ _ => 0x8004
  | .subReg _ _ => 0x8005
  | .subnReg _ _ => 0x8007
  | .shr _ _ => 0x8006
  | .shl _ _ => 0x800E
  | .sneReg _ _ _ => 0x9000
  | .ldI _ => 0xA000
  | .jpV0 _ => 0xB000
  | .rnd _ _ => 0xC000
  | .drw _ _ _ => 0xD000
  | .skp _ _ => 0xE00E
  | .sknp _ _ => 0xE001
  | .ldVxDT _ => 0xF007
  | .ldVxK _ => 0xF00A
  | .ldDTVx _ => 0xF015
  | .ldSTVx _ => 0xF018
  | .addIVx _ => 0xF01E
  | .ldFVx _ => 0xF029
  | .ldBVx _ => 0xF033
  | .ldMemVx _ => 0xF055
  | .ldVxMem _ => 0xF065
  | .nop0 _ sel => sel.setWidth 16
  | .nop8 _ sel => 0x8000 ||| sel.setWidth 16
  | .nopE _ sel => 0xE000 ||| sel.setWidth 16
  | .nopF _ sel => 0xF000 ||| sel.setWidth 16

end Sys2Proof
end

