-- ==== Sys2Proof/Config.lean ====
section
/-! DEFINITION. The constants of spec 00_scope.md R6 and the one free value of the machine.
The FONT table is `Config.font`, in Machine/Font.lean (where a later repair may mend it). -/

namespace Sys2Proof

/-- MEMSIZE (R6): bytes of memory. -/
abbrev Config.memSize : Nat := 4096

/-- PROG_BASE (R6): where a ROM is loaded. -/
abbrev Config.progBase : Nat := 0x200

/-- ROM_MAX (R6): MEMSIZE - PROG_BASE. -/
abbrev Config.romMax : Nat := 3584

/-- The free value of the machine (R8, R162): the k-th random byte that the generator outside the core
delivers. It has no body: nothing can be proved of its value, so every statement holds for every
sequence of bytes (log entry 1). -/
opaque Config.rnd : Nat → Byte

end Sys2Proof
end

