-- ==== Sys2Proof/Machine/Font.lean ====
section
/-! DEFINITION. The font (10_state.md R33): its place, and the parameter FONT with its default table (D14, log entry 3).
A statement that depends on glyph shapes names `Config.font`. -/

namespace Sys2Proof

/-- FONT_BASE (R6, D14). -/
def Config.fontBase : Nat := 0x050

/-- Bytes per glyph (R33). -/
def Config.glyphBytes : Nat := 5

/-- FONT_SIZE (R6): 16 glyphs of 5 bytes. -/
def Config.fontSize : Nat := 80

/-- FONT: the default table of R33, glyphs 0 to F in order, top row first. -/
def Config.font : List Byte :=
  [0xF0, 0x90, 0x90, 0x90, 0xF0] ++ [0x20, 0x60, 0x20, 0x20, 0x70] ++
  [0xF0, 0x10, 0xF0, 0x80, 0xF0] ++ [0xF0, 0x10, 0xF0, 0x10, 0xF0] ++
  [0x90, 0x90, 0xF0, 0x10, 0x10] ++ [0xF0, 0x80, 0xF0, 0x10, 0xF0] ++
  [0xF0, 0x80, 0xF0, 0x90, 0xF0] ++ [0xF0, 0x10, 0x20, 0x40, 0x40] ++
  [0xF0, 0x90, 0xF0, 0x90, 0xF0] ++ [0xF0, 0x90, 0xF0, 0x10, 0xF0] ++
  [0xF0, 0x90, 0xF0, 0x90, 0x90] ++ [0xE0, 0x90, 0xE0, 0x90, 0xE0] ++
  [0xF0, 0x80, 0x80, 0x80, 0xF0] ++ [0xE0, 0x90, 0x90, 0x90, 0xE0] ++
  [0xF0, 0x80, 0xF0, 0x80, 0xF0] ++ [0xF0, 0x80, 0xF0, 0x80, 0x80]

end Sys2Proof
end

