-- ==== Sys2Proof/Machine/State.lean ====
section
/-! DEFINITION. The state of the machine (10_state.md section 1) as plain data, and its reset value (70 R270, R271). -/

namespace Sys2Proof.Machine

/-- FAULT's values (R31, R240); the numbers are `FaultCode.code` in Ops.lean. -/
inductive FaultCode where
  /-- NONE: no fault latched. -/
  | noFault
  /-- STACK_OVERFLOW: raised by CALL when SP = 16. -/
  | stackOverflow
  /-- STACK_UNDERFLOW: raised by RET when SP = 0. -/
  | stackUnderflow
  /-- ADDRESS_OUT_OF_RANGE: raised by DRW, LD B, LD [I] and LD Vx,[I] when an address exceeds 0xFFF. -/
  | addressOutOfRange
  deriving DecidableEq, Repr

/-- How a step can end without a next state: never. Every fault of this hardware is latched in FAULT by an
entry the spec describes (R244), after which the machine has a next state (R245); so no one raises a
constructor of this type, and it has none (log entry 2). Safe. -/
inductive Fault where
  deriving DecidableEq, Repr

/-- Why a move is refused. No instruction is refused (R256); the last two are host moves outside the contract of R252. -/
inductive Refusal where
  /-- Raised by an arm of `exec` whose instruction has no meaning yet: here by none. Safe. -/
  | notModelled (mnemonic : String)
  /-- Raised by `loadRom` once RUNNING = 1 (R275). Safe. -/
  | romLoadAfterStart
  /-- Raised by `loadRom` after an earlier successful load (R275, "exactly once"). Safe. -/
  | secondRomLoad
  deriving DecidableEq, Repr

/-- MEM: the cells that differ from their reset content, addresses strictly rising (`Memory.wf` in Ops.lean). -/
abbrev Memory := List Host.Cell

/-- FB: 32 rows of 64 cells, true = on (R29). The cell FB[k] is `Screen.get` in Ops.lean. -/
abbrev Screen := Vector (Vector Bool 64) 32

structure State where
  /-- V[0..15] (R20); V[15] is VF (R21). -/
  v : Vector Byte 16
  /-- I (R24). -/
  i : Word16
  /-- PC (R22). -/
  pc : Word16
  /-- SP: occupied stack slots, 0 to 16 (R25). -/
  sp : Fin 17
  /-- STACK[0..15] (R25). -/
  stack : Vector Word16 16
  /-- DT (R26). -/
  dt : Byte
  /-- ST (R26). -/
  st : Byte
  /-- MEM (R28). -/
  mem : Memory
  /-- FB (R29). -/
  fb : Screen
  /-- K[0..15], true = pressed (R30). -/
  keys : Vector Bool 16
  /-- FAULT (R31). -/
  fault : FaultCode
  /-- FAULT_PC (R31). -/
  faultPc : Word16
  /-- FAULT_INFO (R31). -/
  faultInfo : Word16
  /-- RUNNING (R32). -/
  running : Bool
  /-- The model's own: a ROM has been loaded since reset (log entry 5). -/
  romLoaded : Bool
  /-- The model's own: random bytes consumed so far (R8, log entry 1). -/
  draws : Nat
  deriving DecidableEq, Repr

/-- Reset (R270, R271). Memory lists nothing: an unlisted cell reads as its reset content (`Memory.resetByte`). -/
def State.reset : State where
  v := Vector.replicate 16 0
  i := 0
  pc := 0x0200
  sp := 0
  stack := Vector.replicate 16 0
  dt := 0
  st := 0
  mem := []
  fb := Vector.replicate 32 (Vector.replicate 64 false)
  keys := Vector.replicate 16 false
  fault := .noFault
  faultPc := 0
  faultInfo := 0
  running := false
  romLoaded := false
  draws := 0

end Sys2Proof.Machine
end

