-- ==== Sys2Proof/Machine/Ops.lean ====
section
/-! DEFINITION. The named operations over registers, memory, stack and screen, and taking a fault
(00_scope.md R10, 20_memory.md, 60_exceptions.md R244). Meanings use these and no record field of their own. -/

namespace Sys2Proof.Machine

/-- What a step or a meaning answers. -/
abbrev Answer := Host.Outcome State Fault Refusal

/-! ## General registers (R20) and keypad (R30) -/

def State.readV (s : State) (x : Nibble) : Byte := s.v[x.toNat]'(x.isLt)

def State.writeV (s : State) (x : Nibble) (b : Byte) : State :=
  { s with v := s.v.set x.toNat b x.isLt }

/-- K[k]. -/
def State.readKey (s : State) (k : Nibble) : Bool := s.keys[k.toNat]'(k.isLt)

/-! ## I, PC, the timers -/

def State.setIndex (s : State) (w : Word16) : State := { s with i := w }
def State.setPc (s : State) (w : Word16) : State := { s with pc := w }
def State.setDelay (s : State) (b : Byte) : State := { s with dt := b }
def State.setSound (s : State) (b : Byte) : State := { s with st := b }
def State.setMem (s : State) (m : Memory) : State := { s with mem := m }
def State.setScreen (s : State) (f : Screen) : State := { s with fb := f }

/-- The 2-byte step of PC, modulo 65536: the advance of every cycle (R112) and the further step of a
taken skip (R134). -/
def State.advancePc (s : State) : State := s.setPc (s.pc + 2)

/-- PC - 2 modulo 65536: in the execute phase, the address of the executing instruction (R112). -/
def State.instrPc (s : State) : Word16 := s.pc - 2

/-- One skip condition: PC steps a further 2 iff it holds (R134). -/
def State.skipIf (s : State) (c : Bool) : State := if c then s.advancePc else s

/-! ## Memory (R28, R50, R56) -/

/-- What a cell holds after reset (R51, R270): the font at 0x050..0x09F, 0 elsewhere. So reads an unlisted address. -/
def Memory.resetByte (a : Nat) : Byte :=
  if Config.fontBase ≤ a ∧ a < Config.fontBase + Config.fontSize then
    Config.font.getD (a - Config.fontBase) 0
  else 0

/-- MEM[a], for a < 4096. (No meaning reads any other address: R54.) -/
def Memory.read : Memory → Nat → Byte
  | [], a => Memory.resetByte a
  | (b, w) :: m, a => if a = b then w else Memory.read m a

/-- Lists the cell `a` with the byte `v`, at its place in the rising order. -/
def Memory.place : Memory → Nat → Byte → Memory
  | [], a, v => [(a, v)]
  | (b, w) :: m, a, v =>
    if a < b then (a, v) :: (b, w) :: m
    else if a = b then (a, v) :: m
    else (b, w) :: Memory.place m a v

/-- Unlists the cell `a`. -/
def Memory.unplace (m : Memory) (a : Nat) : Memory := m.filter (fun c => c.1 ≠ a)

/-- MEM[a] <- v, in the canonical form. There is no cell at or above 4096 (R50); no meaning writes one (R54). -/
def Memory.write (m : Memory) (a : Nat) (v : Byte) : Memory :=
  if Config.memSize ≤ a then m
  else if v = Memory.resetByte a then Memory.unplace m a
  else Memory.place m a v

/-- The entries of a canonical memory, all addresses being at or above `lo`. -/
def Memory.wfFrom : Nat → Memory → Bool
  | _, [] => true
  | lo, (a, v) :: m =>
    decide (lo ≤ a) && decide (a < Config.memSize) && decide (v ≠ Memory.resetByte a) &&
      Memory.wfFrom (a + 1) m

/-- The canonical form: addresses strictly rising and below 4096, no entry equal to its reset content. -/
def Memory.wf (m : Memory) : Bool := Memory.wfFrom 0 m

/-- Stores bytes at `a`, `a + 1`, ... in ascending order. -/
def Memory.writeBytes : Memory → Nat → List Byte → Memory
  | m, _, [] => m
  | m, a, b :: bs => Memory.writeBytes (Memory.write m a b) (a + 1) bs

/-- MemRead(addr, 1) on the state. -/
def State.readByte (s : State) (a : Nat) : Byte := Memory.read s.mem a

/-! ## Call stack (R25, R130, R132) -/

/-- STACK[SP] <- w; SP <- SP + 1; nothing when the stack is full. -/
def State.push (s : State) (w : Word16) : Option State :=
  if h : s.sp.val < 16 then
    some { s with stack := s.stack.set s.sp.val w h, sp := ⟨s.sp.val + 1, by omega⟩ }
  else none

/-- SP <- SP - 1; gives STACK[SP], which keeps its value; nothing when the stack is empty. -/
def State.pop (s : State) : Option (Word16 × State) :=
  if h : 0 < s.sp.val then
    some (s.stack[s.sp.val - 1]'(by omega), { s with sp := ⟨s.sp.val - 1, by omega⟩ })
  else none

/-! ## Screen (R29) -/

/-- FB[k]: row k / 64, column k mod 64. -/
def Screen.get (f : Screen) (k : Fin 2048) : Bool :=
  (f[k.val / 64]'(by omega))[k.val % 64]'(by omega)

/-- FB[k] <- b. -/
def Screen.put (f : Screen) (k : Fin 2048) (b : Bool) : Screen :=
  f.set (k.val / 64) ((f[k.val / 64]'(by omega)).set (k.val % 64) b (by omega)) (by omega)

/-- All 2048 cells 0. -/
def Screen.off : Screen := Vector.replicate 32 (Vector.replicate 64 false)

/-- The cell index py * 64 + px of column `x` and row `y`, each wrapped (R29, R201). -/
def screenCell (x y : Nat) : Fin 2048 := ⟨(y % 32) * 64 + x % 64, by omega⟩

/-! ## The random byte (R8, R162) -/

/-- This cycle's draw: the free value `Config.rnd` at the count of draws so far. -/
def State.drawByte (s : State) : Byte := Config.rnd s.draws

/-- Counts the draw as consumed. -/
def State.consumeDraw (s : State) : State := { s with draws := s.draws + 1 }

/-! ## Taking a fault (R240, R244) -/

/-- FAULT's number (R31, D4). -/
def FaultCode.code : FaultCode → BitVec 2
  | .noFault => 0
  | .stackOverflow => 1
  | .stackUnderflow => 2
  | .addressOutOfRange => 3

/-- Latches fault `c` with information `info` for the instruction at `pc0`. -/
def State.latch (s : State) (c : FaultCode) (pc0 info : Word16) : State :=
  { s with pc := pc0, fault := c, faultPc := pc0, faultInfo := info, running := true }

/-- Fault entry (R244), from the execute phase: no meaning writes anything before it raises, so what is undone is the PC
advance of phase 2, and PC is left at the faulting instruction. There is no return from it (R246): only
reset clears the latch. -/
def raise (c : FaultCode) (info : Word16) (s : State) : Answer :=
  .next (s.latch c s.instrPc info)

/-- The lowest out-of-range address that an instruction touching memory from I on would touch: max(I, 0x1000) (R54, R240). -/
def State.offendingAddress (s : State) : Word16 := if s.i.toNat < 0x1000 then 0x1000 else s.i

/-- Does an access of `len` bytes from I on leave memory (R54)? No access at all never does (D27). -/
def State.outOfRange (s : State) (len : Nat) : Bool :=
  decide (0 < len ∧ 0xFFF < s.i.toNat + (len - 1))

/-- The check of R54 before an instruction that touches `len` bytes from I on does anything. -/
def State.guarded (s : State) (len : Nat) (s' : State) : Answer :=
  if s.outOfRange len then raise .addressOutOfRange s.offendingAddress s else .next s'

end Sys2Proof.Machine
end

