-- ==== Sys2Proof/Machine/Flags.lean ====
section
/-! DEFINITION. The flag computations of R23 and the write order of R150. VF is the machine's only flag. -/

namespace Sys2Proof.Machine

/-- VF's index (R21). -/
def vf : Nibble := 0xF

/-- A flag as the byte VF receives: 0x00 or 0x01 (R21). -/
def flagByte (c : Bool) : Byte := if c then 1 else 0

/-- add-registers: the true sum exceeds 255 (R157). -/
def carryOfAdd (vx vy : Byte) : Bool := decide (255 < vx.toNat + vy.toNat)

/-- subtract: a > b, strictly, unsigned (R158; R159 with the operands swapped). -/
def greaterFlag (a b : Byte) : Bool := decide (b.toNat < a.toNat)

/-- shift-right: bit 0 of the source (R160). -/
def lowBitFlag (vx : Byte) : Bool := vx.getLsbD 0

/-- shift-left: bit 7 of the source (R161). -/
def highBitFlag (vx : Byte) : Bool := vx.getLsbD 7

/-- Writes the flag. -/
def State.setFlag (s : State) (c : Bool) : State := s.writeV vf (flagByte c)

/-- R150: the destination is written, then the flag, last; so with x = 15 the flag remains. -/
def State.writeWithFlag (s : State) (x : Nibble) (r : Byte) (c : Bool) : State :=
  (s.writeV x r).setFlag c

end Sys2Proof.Machine
end

