-- ==== Sys2Proof/Machine/Operands.lean ====
section
/-! DEFINITION. Operand forms: immediates (30_encoding.md R84), low-nibble operands (D12, D13), addresses from I (43 R186),
BCD digits (R183), register lists (R184, R185). -/

namespace Sys2Proof.Machine

/-- zext_16(nnn) (R84). -/
def zext12 (nnn : Addr12) : Word16 := nnn.setWidth 16

/-- zext_16 of a register value (R133, R181). -/
def zext8 (b : Byte) : Word16 := b.setWidth 16

/-- The low nibble of a register: a key index (R220, D12) or a glyph digit (R182, D13). -/
def lowNibble (b : Byte) : Nibble := b.extractLsb' 0 4

/-- FONT_BASE + 5 * digit (R182). -/
def glyphAddress (d : Nibble) : Word16 := BitVec.ofNat 16 (Config.fontBase + Config.glyphBytes * d.toNat)

/-- I + k as an integer (R54, R186). -/
def State.dataAddress (s : State) (k : Nat) : Nat := s.i.toNat + k

/-- The three bytes of store-BCD (R183): hundreds, tens, ones. -/
def bcdBytes (b : Byte) : List Byte :=
  [BitVec.ofNat 8 (b.toNat / 100), BitVec.ofNat 8 (b.toNat / 10 % 10), BitVec.ofNat 8 (b.toNat % 10)]

/-- The registers 0..=x of register-dump and register-load, ascending. -/
def registersUpTo (x : Nibble) : List Nibble := (List.range (x.toNat + 1)).map (BitVec.ofNat 4)

/-- The key indices 0 to 15 in ascending order (R222). -/
def keysAscending : List Nibble := (List.range 16).map (BitVec.ofNat 4)

/-- The lowest pressed key, if any (R222). -/
def State.firstKey (s : State) : Option Nibble := keysAscending.find? s.readKey

/-- V[k] <- MEM[I + k] for k in 0..x, ascending (R185). -/
def State.loadRegisters (s : State) (x : Nibble) : State :=
  (registersUpTo x).foldl (fun t k => t.writeV k (s.readByte (s.dataAddress k.toNat))) s

end Sys2Proof.Machine
end

