-- ==== Sys2Proof/Machine/Alu.lean ====
section
/-! DEFINITION. Register and arithmetic instructions (42_alu.md R150 to R162). -/

namespace Sys2Proof.Machine

/-- LD Vx, kk (R151). -/
def execLdImm (x : Nibble) (kk : Byte) (s : State) : Answer := .next (s.writeV x kk)

/-- ADD Vx, kk (R152): no flag. -/
def execAddImm (x : Nibble) (kk : Byte) (s : State) : Answer := .next (s.writeV x (s.readV x + kk))

/-- LD Vx, Vy (R153). -/
def execLdReg (x y : Nibble) (s : State) : Answer := .next (s.writeV x (s.readV y))

/-- OR Vx, Vy (R154). -/
def execOrReg (x y : Nibble) (s : State) : Answer := .next (s.writeV x (s.readV x ||| s.readV y))

/-- AND Vx, Vy (R155). -/
def execAndReg (x y : Nibble) (s : State) : Answer := .next (s.writeV x (s.readV x &&& s.readV y))

/-- XOR Vx, Vy (R156). -/
def execXorReg (x y : Nibble) (s : State) : Answer := .next (s.writeV x (s.readV x ^^^ s.readV y))

/-- ADD Vx, Vy (R157). -/
def execAddReg (x y : Nibble) (s : State) : Answer :=
  .next (s.writeWithFlag x (s.readV x + s.readV y) (carryOfAdd (s.readV x) (s.readV y)))

/-- SUB Vx, Vy (R158). -/
def execSubReg (x y : Nibble) (s : State) : Answer :=
  .next (s.writeWithFlag x (s.readV x - s.readV y) (greaterFlag (s.readV x) (s.readV y)))

/-- SUBN Vx, Vy (R159). -/
def execSubnReg (x y : Nibble) (s : State) : Answer :=
  .next (s.writeWithFlag x (s.readV y - s.readV x) (greaterFlag (s.readV y) (s.readV x)))

/-- SHR Vx (R160): in place. -/
def execShr (x : Nibble) (s : State) : Answer :=
  .next (s.writeWithFlag x (s.readV x >>> 1) (lowBitFlag (s.readV x)))

/-- SHL Vx (R161): in place. -/
def execShl (x : Nibble) (s : State) : Answer :=
  .next (s.writeWithFlag x (s.readV x <<< 1) (highBitFlag (s.readV x)))

/-- RND Vx, kk (R162): consumes one draw. -/
def execRnd (x : Nibble) (kk : Byte) (s : State) : Answer :=
  .next ((s.writeV x (s.drawByte &&& kk)).consumeDraw)

end Sys2Proof.Machine
end

