-- ==== Sys2Proof/Machine/Control.lean ====
section
/-! DEFINITION. Control transfer (41_control_flow.md R130 to R137). PC already holds the instruction's address plus 2 (R112). -/

namespace Sys2Proof.Machine

/-- RET (R130). The opcode of an underflow is the instruction's own word. -/
def execRet (ign : Byte) (s : State) : Answer :=
  match s.pop with
  | some (target, s') => .next (s'.setPc target)
  | none => raise .stackUnderflow (encode (.ret ign)) s

/-- JP nnn (R131). -/
def execJp (nnn : Addr12) (s : State) : Answer := .next (s.setPc (zext12 nnn))

/-- CALL nnn (R132). -/
def execCall (nnn : Addr12) (s : State) : Answer :=
  match s.push s.pc with
  | some s' => .next (s'.setPc (zext12 nnn))
  | none => raise .stackOverflow (encode (.call nnn)) s

/-- JP V0, nnn (R133): a 16-bit sum, not masked. -/
def execJpV0 (nnn : Addr12) (s : State) : Answer :=
  .next (s.setPc (zext8 (s.readV 0) + zext12 nnn))

/-- SE Vx, kk (R134). -/
def execSeImm (x : Nibble) (kk : Byte) (s : State) : Answer := .next (s.skipIf (s.readV x == kk))

/-- SNE Vx, kk (R135). -/
def execSneImm (x : Nibble) (kk : Byte) (s : State) : Answer := .next (s.skipIf (s.readV x != kk))

/-- SE Vx, Vy (R136): values, not indices. -/
def execSeReg (x y : Nibble) (s : State) : Answer := .next (s.skipIf (s.readV x == s.readV y))

/-- SNE Vx, Vy (R137). -/
def execSneReg (x y : Nibble) (s : State) : Answer := .next (s.skipIf (s.readV x != s.readV y))

end Sys2Proof.Machine
end

