-- ==== Sys2Proof/Machine/Display.lean ====
section
/-! DEFINITION. Display instructions (44_display.md R200 to R202). -/

namespace Sys2Proof.Machine

/-- CLS (R200). -/
def execCls (s : State) : Answer := .next (s.setScreen Screen.off)

/-- Column `col` of a sprite row: bit 7 is column 0 (R202). -/
def spritePixel (b : Byte) (col : Nat) : Bool := b.getLsbD (7 - col)

/-- The cells under the set bits of sprite row `row`, left to right (R201). -/
def spriteRow (vx vy : Byte) (row : Nat) (b : Byte) : List (Fin 2048) :=
  ((List.range 8).filter (spritePixel b)).map (fun col => screenCell (vx.toNat + col) (vy.toNat + row))

/-- The cells under the set bits of the `n` rows from I on (R201). -/
def State.spriteCells (s : State) (vx vy : Byte) (n : Nat) : List (Fin 2048) :=
  (List.range n).flatMap (fun row => spriteRow vx vy row (s.readByte (s.dataAddress row)))

/-- XORs one cell; a cell that was on is a collision (R201). -/
def xorCell (acc : Screen × Bool) (k : Fin 2048) : Screen × Bool :=
  (acc.1.put k (!acc.1.get k), acc.2 || acc.1.get k)

/-- XORs the cells in turn, starting with no collision. -/
def blit (f : Screen) (cells : List (Fin 2048)) : Screen × Bool := cells.foldl xorCell (f, false)

/-- Writes the screen, then the flag, last (R150). -/
def State.drawn (s : State) (r : Screen × Bool) : State := (s.setScreen r.1).setFlag r.2

/-- DRW Vx, Vy, n (R201). -/
def execDrw (x y n : Nibble) (s : State) : Answer :=
  s.guarded n.toNat (s.drawn (blit s.fb (s.spriteCells (s.readV x) (s.readV y) n.toNat)))

end Sys2Proof.Machine
end

