-- ==== Sys2Proof/Machine/IndexMem.lean ====
section
/-! DEFINITION. Index register and memory instructions (43_index_memory.md R180 to R185). -/

namespace Sys2Proof.Machine

/-- LD I, nnn (R180). -/
def execLdI (nnn : Addr12) (s : State) : Answer := .next (s.setIndex (zext12 nnn))

/-- ADD I, Vx (R181): modulo 65536, no flag. -/
def execAddIVx (x : Nibble) (s : State) : Answer := .next (s.setIndex (s.i + zext8 (s.readV x)))

/-- LD F, Vx (R182). -/
def execLdFVx (x : Nibble) (s : State) : Answer :=
  .next (s.setIndex (glyphAddress (lowNibble (s.readV x))))

/-- LD B, Vx (R183). -/
def execLdBVx (x : Nibble) (s : State) : Answer :=
  s.guarded 3 (s.setMem (Memory.writeBytes s.mem (s.dataAddress 0) (bcdBytes (s.readV x))))

/-- LD [I], Vx (R184). -/
def execLdMemVx (x : Nibble) (s : State) : Answer :=
  s.guarded (x.toNat + 1)
    (s.setMem (Memory.writeBytes s.mem (s.dataAddress 0) ((registersUpTo x).map s.readV)))

/-- LD Vx, [I] (R185). -/
def execLdVxMem (x : Nibble) (s : State) : Answer := s.guarded (x.toNat + 1) (s.loadRegisters x)

end Sys2Proof.Machine
end

