-- ==== Sys2Proof/Machine/KeyTimer.lean ====
section
/-! DEFINITION. Keypad and timer instructions (45_keypad_timers.md R220 to R225). -/

namespace Sys2Proof.Machine

/-- SKP Vx (R220). -/
def execSkp (x : Nibble) (s : State) : Answer :=
  .next (s.skipIf (s.readKey (lowNibble (s.readV x))))

/-- SKNP Vx (R221). -/
def execSknp (x : Nibble) (s : State) : Answer :=
  .next (s.skipIf (!s.readKey (lowNibble (s.readV x))))

/-- LD Vx, K (R222): with no key pressed, PC goes back to this instruction. -/
def execLdVxK (x : Nibble) (s : State) : Answer :=
  match s.firstKey with
  | some k => .next (s.writeV x (k.setWidth 8))
  | none => .next (s.setPc s.instrPc)

/-- LD Vx, DT (R223): DT before this cycle's decay. -/
def execLdVxDT (x : Nibble) (s : State) : Answer := .next (s.writeV x s.dt)

/-- LD DT, Vx (R224). -/
def execLdDTVx (x : Nibble) (s : State) : Answer := .next (s.setDelay (s.readV x))

/-- LD ST, Vx (R225). -/
def execLdSTVx (x : Nibble) (s : State) : Answer := .next (s.setSound (s.readV x))

end Sys2Proof.Machine
end

