-- ==== Sys2Proof/Machine/Unmapped.lean ====
section
/-! DEFINITION. The no-op fallback (40_cycle.md R116): no execute effect; the cycle around it is complete. -/

namespace Sys2Proof.Machine

/-- Unmapped, family 0x0. -/
def execNop0 (s : State) : Answer := .next s

/-- Unmapped, family 0x8. -/
def execNop8 (s : State) : Answer := .next s

/-- Unmapped, family 0xE. -/
def execNopE (s : State) : Answer := .next s

/-- Unmapped, family 0xF. -/
def execNopF (s : State) : Answer := .next s

end Sys2Proof.Machine
end

