-- ==== Sys2Proof/Machine/Cycle.lean ====
section
/-! DEFINITION. The cycle around `exec` (40_cycle.md R110 to R115): halted check, fetch, advance, execute, timer decay. -/

namespace Sys2Proof.Machine

/-- Fetch(PC) (R52, R111): both byte addresses modulo 4096, the high byte first; never faults. -/
def State.fetch (s : State) : Word16 :=
  wordOfBytes (s.readByte (s.pc.toNat % Config.memSize)) (s.readByte ((s.pc.toNat + 1) % Config.memSize))

/-- RUNNING <- 1 and phase 2 (R110, R112). -/
def State.beginCycle (s : State) : State := State.advancePc { s with running := true }

/-- Down by 1, floor at 0 (R26, R114). -/
def decayed (t : Byte) : Byte := if t = 0 then 0 else t - 1

/-- Phase 4 (R114). -/
def State.decayTimers (s : State) : State := (s.setDelay (decayed s.dt)).setSound (decayed s.st)

/-- The end of a cycle: the timers decay unless the execute phase raised a fault (R115). -/
def State.endCycle (s : State) : State := if s.fault = .noFault then s.decayTimers else s

/-- What the cycle makes of an answer of the execute phase. -/
def finish : Answer → Answer
  | .next s => .next s.endCycle
  | .fault r => .fault r
  | .refused r => .refused r

/-- Step (R110): a halted core changes nothing (R245). -/
def cycle (s : State) : Answer :=
  if s.fault = .noFault then finish (exec (decode s.fetch) s.beginCycle) else .next s

/-- Stores an opcode where the next cycle fetches it, and nothing else. -/
def State.placeOpcode (s : State) (w : Word16) : State :=
  let m := Memory.write s.mem (s.pc.toNat % Config.memSize) (highByte w)
  s.setMem (Memory.write m ((s.pc.toNat + 1) % Config.memSize) (lowByte w))

end Sys2Proof.Machine
end

