-- ==== Sys2Proof/Machine/Step.lean ====
section
/-! DEFINITION. The machine's step (40_cycle.md R110): one cycle. -/

namespace Sys2Proof.Machine

/-- Step(rnd): the draw is the state's (`State.drawByte`, log entry 1). -/
def step (s : State) : Host.Outcome State Fault Refusal := cycle s

/-- `s` with the word in the low `nbits` bits of `w` stored where `step` fetches (log entry 8). -/
def State.withFetchWord (s : State) (nbits w : Nat) : State :=
  s.placeOpcode (BitVec.ofNat 16 (w % 2 ^ nbits))

end Sys2Proof.Machine
end

