-- ==== Sys2Proof/Machine/Driver.lean ====
section
/-! DEFINITION. The host's moves between steps (60_exceptions.md R252, 70 R270, R275). Reading state needs no operation:
it has no effect on the core. -/

namespace Sys2Proof.Machine

/-- reset (R270): every piece of state of the core; the random generator lies outside it (R271), so its position is kept. -/
def driverReset (s : State) : State := { State.reset with draws := s.draws }

/-- write keys (R30, R252): allowed at any boundary, halted or not. -/
def writeKeys (keys : Vector Bool 16) (s : State) : State := { s with keys := keys }

/-- What load_rom replies to the host (R275). -/
inductive LoadReply where
  /-- OK. -/
  | ok
  /-- ROM_TOO_LARGE: longer than 3584 bytes; no state changes (R250). -/
  | romTooLarge
  deriving DecidableEq, Repr

/-- LoadRom(bytes) (R275): refused after the first step, and after an earlier load (log entry 5). -/
def loadRom (bytes : List Byte) (s : State) : Host.Outcome (LoadReply × State) Fault Refusal :=
  if s.running then .refused .romLoadAfterStart
  else if s.romLoaded then .refused .secondRomLoad
  else if Config.romMax < bytes.length then .next (.romTooLarge, s)
  else .next (.ok, { s with mem := Memory.writeBytes s.mem Config.progBase bytes, romLoaded := true })

/-- The moves of R252. -/
inductive DriverMove where
  | reset
  | loadRom (bytes : List Byte)
  | writeKeys (keys : Vector Bool 16)
  | step
  deriving DecidableEq, Repr

/-- One host move. -/
def drive : DriverMove → State → Answer
  | .reset, s => .next (driverReset s)
  | .loadRom bytes, s =>
    match loadRom bytes s with
    | .next (_, s') => .next s'
    | .fault r => .fault r
    | .refused r => .refused r
  | .writeKeys keys, s => .next (writeKeys keys s)
  | .step, s => step s

end Sys2Proof.Machine
end

