-- ==== Sys2Proof/Safety.lean ====
section
/-! DEFINITION. The terms that claims use: what a safe run is, when an instruction faults (the table of R240), where PC goes
(the table of R112), what an instruction may change (frames), which cells a sprite covers, and the machine's invariant. -/

namespace Sys2Proof.Machine

/-! ## Safe runs -/

/-- The core is halted by a latched fault (R245). -/
def State.halted (s : State) : Prop := s.fault ≠ .noFault

/-- A run of `n` steps that ends with no fault latched: R245 asks every claim to carry "FAULT = 0". -/
def SafeRun (n : Nat) (s : State) : Prop := ∃ t, core.run n s = .next t ∧ ¬ t.halted

/-! ## The fault table of R240, and the state after fault entry (R244) -/

/-- The code and FAULT_INFO an instruction would fault with, tested on SP and I before it. -/
def faultOf (i : Instr) (s : State) : Option (FaultCode × Word16) :=
  match i with
  | .call nnn => if s.sp.val = 16 then some (.stackOverflow, encode (.call nnn)) else none
  | .ret ign => if s.sp.val = 0 then some (.stackUnderflow, encode (.ret ign)) else none
  | .drw _ _ n =>
    if 0 < n.toNat ∧ 0xFFF < s.i.toNat + n.toNat - 1 then
      some (.addressOutOfRange, BitVec.ofNat 16 (max s.i.toNat 0x1000))
    else none
  | .ldBVx _ =>
    if 0xFFF < s.i.toNat + 2 then
      some (.addressOutOfRange, BitVec.ofNat 16 (max s.i.toNat 0x1000))
    else none
  | .ldMemVx x | .ldVxMem x =>
    if 0xFFF < s.i.toNat + x.toNat then
      some (.addressOutOfRange, BitVec.ofNat 16 (max s.i.toNat 0x1000))
    else none
  | .cls _ | .jp _ | .seImm _ _ | .sneImm _ _ | .seReg _ _ _ | .ldImm _ _ | .addImm _ _
  | .ldReg _ _ | .orReg _ _ | .andReg _ _ | .xorReg _ _ | .addReg _ _ | .subReg _ _
  | .subnReg _ _ | .shr _ _ | .shl _ _ | .sneReg _ _ _ | .ldI _ | .jpV0 _ | .rnd _ _
  | .skp _ _ | .sknp _ _ | .ldVxDT _ | .ldVxK _ | .ldDTVx _ | .ldSTVx _ | .addIVx _
  | .ldFVx _ | .nop0 _ _ | .nop8 _ _ | .nopE _ _ | .nopF _ _ => none

/-- The state that fault entry leaves, `pc0` being the address of the faulting instruction (R244). -/
def State.faulted (s : State) (c : FaultCode) (pc0 info : Word16) : State :=
  { s with pc := pc0, fault := c, faultPc := pc0, faultInfo := info, running := true }

/-! ## PC at the end of a completed cycle (R112) -/

/-- R112's table, on the state before the cycle (PC = pc0). -/
def pcAfter (i : Instr) (s : State) : Word16 :=
  match i with
  | .jp nnn => BitVec.ofNat 16 nnn.toNat
  | .call nnn => BitVec.ofNat 16 nnn.toNat
  | .ret _ => s.stack.toList.getD (s.sp.val - 1) 0
  | .jpV0 nnn => BitVec.ofNat 16 ((s.readV 0).toNat + nnn.toNat)
  | .seImm x kk => if s.readV x = kk then s.pc + 4 else s.pc + 2
  | .sneImm x kk => if s.readV x = kk then s.pc + 2 else s.pc + 4
  | .seReg x y _ => if s.readV x = s.readV y then s.pc + 4 else s.pc + 2
  | .sneReg x y _ => if s.readV x = s.readV y then s.pc + 2 else s.pc + 4
  | .skp x _ => if s.readKey (BitVec.ofNat 4 (s.readV x).toNat) then s.pc + 4 else s.pc + 2
  | .sknp x _ => if s.readKey (BitVec.ofNat 4 (s.readV x).toNat) then s.pc + 2 else s.pc + 4
  | .ldVxK _ => if s.keys.toList.any id then s.pc + 2 else s.pc
  | .cls _ | .ldImm _ _ | .addImm _ _ | .ldReg _ _ | .orReg _ _ | .andReg _ _ | .xorReg _ _
  | .addReg _ _ | .subReg _ _ | .subnReg _ _ | .shr _ _ | .shl _ _ | .ldI _ | .rnd _ _
  | .drw _ _ _ | .ldVxDT _ | .ldDTVx _ | .ldSTVx _ | .addIVx _ | .ldFVx _ | .ldBVx _
  | .ldMemVx _ | .ldVxMem _ | .nop0 _ _ | .nop8 _ _ | .nopE _ _ | .nopF _ _ => s.pc + 2

/-! ## Frames -/

/-- What a form may change, PC apart. Everything not named is unchanged. -/
structure Footprint where
  reg : Nibble → Bool := fun _ => false
  index : Bool := false
  sp : Bool := false
  slot : Nat → Bool := fun _ => false
  delay : Bool := false
  sound : Bool := false
  byte : Nat → Bool := fun _ => false
  screen : Bool := false
  draws : Bool := false

/-- `t` differs from `s` at most in PC and in what the footprint names. The keypad, the fault registers,
RUNNING and the ROM bit are in no footprint: no completed instruction changes them. -/
structure Frame (f : Footprint) (s t : State) : Prop where
  regs : ∀ r, f.reg r = false → t.readV r = s.readV r
  index : f.index = false → t.i = s.i
  sp : f.sp = false → t.sp = s.sp
  slots : ∀ k (h : k < 16), f.slot k = false → t.stack[k] = s.stack[k]
  delay : f.delay = false → t.dt = s.dt
  sound : f.sound = false → t.st = s.st
  bytes : ∀ a, f.byte a = false → t.readByte a = s.readByte a
  screen : f.screen = false → t.fb = s.fb
  keys : t.keys = s.keys
  fault : t.fault = s.fault
  faultPc : t.faultPc = s.faultPc
  faultInfo : t.faultInfo = s.faultInfo
  running : t.running = s.running
  romLoaded : t.romLoaded = s.romLoaded
  draws : f.draws = false → t.draws = s.draws

/-! ## VF (R21) -/

/-- The six instructions that overwrite VF as a side effect (R21). -/
def writesFlag : Instr → Bool
  | .addReg _ _ | .subReg _ _ | .subnReg _ _ | .shr _ _ | .shl _ _ | .drw _ _ _ => true
  | .cls _ | .ret _ | .jp _ | .call _ | .seImm _ _ | .sneImm _ _ | .seReg _ _ _ | .ldImm _ _
  | .addImm _ _ | .ldReg _ _ | .orReg _ _ | .andReg _ _ | .xorReg _ _ | .sneReg _ _ _ | .ldI _
  | .jpV0 _ | .rnd _ _ | .skp _ _ | .sknp _ _ | .ldVxDT _ | .ldVxK _ | .ldDTVx _ | .ldSTVx _
  | .addIVx _ | .ldFVx _ | .ldBVx _ | .ldMemVx _ | .ldVxMem _ | .nop0 _ _ | .nop8 _ _
  | .nopE _ _ | .nopF _ _ => false

/-- The x field (R82) of an instruction that has one. -/
def xField : Instr → Option Nibble
  | .seImm x _ | .sneImm x _ | .seReg x _ _ | .ldImm x _ | .addImm x _ | .ldReg x _ | .orReg x _
  | .andReg x _ | .xorReg x _ | .addReg x _ | .subReg x _ | .subnReg x _ | .shr x _ | .shl x _
  | .sneReg x _ _ | .rnd x _ | .drw x _ _ | .skp x _ | .sknp x _ | .ldVxDT x | .ldVxK x
  | .ldDTVx x | .ldSTVx x | .addIVx x | .ldFVx x | .ldBVx x | .ldMemVx x | .ldVxMem x => some x
  | .cls _ | .ret _ | .jp _ | .call _ | .ldI _ | .jpV0 _ | .nop0 _ _ | .nop8 _ _ | .nopE _ _
  | .nopF _ _ => none

/-! ## Pixels (R29, R201, R202) -/

/-- The pixel at column `px` and row `py` (R29). -/
def State.pixel (s : State) (px : Fin 64) (py : Fin 32) : Bool :=
  s.fb.get ⟨py.val * 64 + px.val, by omega⟩

/-- A set bit of the `n`-row sprite at I lies over the pixel, drawn from column `vx` and row `vy`, each
coordinate wrapped (R201, R202). -/
def State.spriteCovers (s : State) (vx vy : Byte) (n : Nat) (px : Fin 64) (py : Fin 32) : Prop :=
  ∃ row col : Nat, row < n ∧ col < 8 ∧ (s.readByte (s.i.toNat + row)).getLsbD (7 - col) = true ∧
    (vx.toNat + col) % 64 = px.val ∧ (vy.toNat + row) % 32 = py.val

/-! ## The invariant -/

/-- Memory keeps its canonical form. -/
def State.memOk (s : State) : Prop := Memory.wf s.mem = true

/-- The latch tells the truth (R31, R244, R245): with no fault it is clear; a latched fault is the one that the
instruction at PC has, with its information, and PC and FAULT_PC are that instruction's address. -/
def State.latchOk (s : State) : Prop :=
  (s.fault = .noFault → s.faultPc = 0 ∧ s.faultInfo = 0) ∧
  (s.fault ≠ .noFault → s.running = true ∧ s.faultPc = s.pc ∧
    faultOf (decode s.fetch) s = some (s.fault, s.faultInfo))

/-- What holds at reset and after every step and host move. -/
structure State.Inv (s : State) : Prop where
  mem : s.memOk
  latch : s.latchOk

end Sys2Proof.Machine
end

