-- ==== Sys2Proof/Certificates/Slice0/Obligations.lean ====
section
/-! DEFINITION. The statements for the provers. A statement about `exec` is about the execute phase: PC already holds the
instruction's address plus 2 (R112), so `t.pc = s.pc` says that the cycle ends at the next instruction, and `s.pc - 2` is the
executing instruction's own address. Each per-instruction statement first gives the encoding, written from the fields of R82 and
R83 (the opcode numbers are the spec's customary ones, its G1 and D2: log entry 4), then that the instruction completes, its
result, and its frame. `Frame` (Safety.lean) says that all but PC and what the footprint names is unchanged. -/

open Sys2Proof Sys2Proof.Machine

/-! ## Encoding -/

/-- Words written out from the opcode tables R85 to R89. A sanity statement. -/
def Obligations.WrittenWordsDecode : Prop :=
  decode 0x00E0 = .cls 0x0E ∧ decode 0x0000 = .cls 0x00 ∧ decode 0x00EE = .ret 0x0E ∧
  decode 0x0FFE = .ret 0xFF ∧ decode 0x0001 = .nop0 0x00 0x1 ∧ decode 0x1300 = .jp 0x300 ∧
  decode 0x2ABC = .call 0xABC ∧ decode 0x332A = .seImm 0x3 0x2A ∧ decode 0x512F = .seReg 0x1 0x2 0xF ∧
  decode 0x8014 = .addReg 0x0 0x1 ∧ decode 0x8017 = .subnReg 0x0 0x1 ∧ decode 0x801E = .shl 0x0 0x1 ∧
  decode 0x8018 = .nop8 0x01 0x8 ∧ decode 0xA2F0 = .ldI 0x2F0 ∧ decode 0xC30F = .rnd 0x3 0x0F ∧
  decode 0xD125 = .drw 0x1 0x2 0x5 ∧ decode 0xE59E = .skp 0x5 0x9 ∧ decode 0xE5A1 = .sknp 0x5 0xA ∧
  decode 0xF30A = .ldVxK 0x3 ∧ decode 0xF255 = .ldMemVx 0x2 ∧ decode 0xF0FF = .nopF 0x0 0xFF

/-- Decode and encode agree on every well-formed instruction, every operand and every ignored bit included. -/
def Obligations.DecodeOfEncode : Prop :=
  ∀ i : Instr, i.wellFormed = true →
    decode (encode i) = i ∧ ∀ rest, decodeBytes (encodeBytes i ++ rest) = .ok (i, rest)

/-- R91: every one of the 65536 opcodes is an instruction, and its encoding is itself. -/
def Obligations.EncodeOfDecode : Prop :=
  ∀ w : Word16, (decode w).wellFormed = true ∧ encode (decode w) = w

/-- R81: the selecting bits of a word are those of its row, and no other bit takes part in selecting the operation:
a word that agrees with another on the bits of the other's row is of the same row. -/
def Obligations.OnlySelectingBitsSelect : Prop :=
  ∀ w : Word16, w &&& selectMask (decode w) = selectPattern (decode w) ∧
    ∀ w' : Word16, w' &&& selectMask (decode w) = selectPattern (decode w) →
      selectMask (decode w') = selectMask (decode w) ∧
        selectPattern (decode w') = selectPattern (decode w)

/-- R90: execute does not read the ignored bits. (A RET that underflows copies its opcode into FAULT_INFO, R240: the one
place where an ignored bit is seen, left out here by SP > 0.) -/
def Obligations.IgnoredBitsHaveNoEffect : Prop :=
  ∀ (s : State) (a b : Byte) (x y m n : Nibble),
    exec (.cls a) s = exec (.cls b) s ∧ (0 < s.sp.val → exec (.ret a) s = exec (.ret b) s) ∧
    exec (.seReg x y m) s = exec (.seReg x y n) s ∧ exec (.sneReg x y m) s = exec (.sneReg x y n) s ∧
    exec (.shr x m) s = exec (.shr x n) s ∧ exec (.shl x m) s = exec (.shl x n) s ∧
    exec (.skp x m) s = exec (.skp x n) s ∧ exec (.sknp x m) s = exec (.sknp x n) s

/-! ## The cycle -/

/-- R110 for a core with no fault latched: when the bytes at PC (each address modulo 4096) decode to a well-formed instruction,
the step is that instruction's execute phase on the state with RUNNING set and PC advanced by 2, and then the timer decay, unless
the execute phase latched a fault. (An execute phase always answers a next state: `EveryStepHasANextState`.) -/
def Obligations.StepRunsDecodedInstruction : Prop :=
  ∀ (s : State) (i : Instr), s.fault = .noFault → i.wellFormed = true →
    decodeBytes [s.readByte (s.pc.toNat % 4096), s.readByte ((s.pc.toNat + 1) % 4096)] = .ok (i, []) →
    (∀ u, exec i { s with running := true, pc := s.pc + 2 } = .next u → u.fault = .noFault →
      step s = .next { u with dt := if u.dt = 0 then 0 else u.dt - 1,
                              st := if u.st = 0 then 0 else u.st - 1 }) ∧
    (∀ u, exec i { s with running := true, pc := s.pc + 2 } = .next u → u.fault ≠ .noFault →
      step s = .next u)

/-- R52: the opcode is two consecutive bytes, the high byte first, each address reduced modulo 4096 (the spec's decision D7). -/
def Obligations.FetchIsBigEndianAndWraps : Prop :=
  ∀ s : State, s.fetch.toNat =
    256 * (s.readByte (s.pc.toNat % 4096)).toNat + (s.readByte ((s.pc.toNat + 1) % 4096)).toNat

/-- R245 (the spec's decision D29): a halted core changes nothing, however often it is stepped. -/
def Obligations.HaltedCoreNeverChanges : Prop :=
  ∀ (k : Nat) (s : State), s.fault ≠ .noFault → core.run k s = .next s

/-- R256, R244, R245: the step function is total: no state and no opcode ends in a fault or a refusal. (That a faulting step and a
halted core's step answer next states too is the model's choice, log entry 2: R256 speaks of the states that are not halted.) -/
def Obligations.EveryStepHasANextState : Prop :=
  (∀ s : State, ∃ t, step s = .next t) ∧ ∀ (i : Instr) (s : State), ∃ t, exec i s = .next t

/-- R115, R240, R244 (the spec's decisions D3 to D6): a step faults exactly when the table of R240 says so of the fetched
instruction and the state before the step; then the step leaves everything but the latch and RUNNING as before the step, PC and timers
included; otherwise no fault is latched. (That FAULT_INFO's opcode includes the ignored bits is the model's deduction: log entry
10.) -/
def Obligations.StepFaultsExactlyByTable : Prop :=
  ∀ s : State, s.fault = .noFault →
    (∀ c info, faultOf (decode s.fetch) s = some (c, info) →
      step s = .next { s with fault := c, faultPc := s.pc, faultInfo := info, running := true }) ∧
    (faultOf (decode s.fetch) s = none →
      ∃ t, step s = .next t ∧ t.fault = .noFault ∧ t.faultPc = s.faultPc ∧
        t.faultInfo = s.faultInfo ∧ t.running = true)

/-- R112: PC during the execute phase, and PC at the end of a completed cycle, for every instruction. -/
def Obligations.PcAtEndOfCycle : Prop :=
  ∀ s : State, s.beginCycle.pc = s.pc + 2 ∧
    (s.fault = .noFault → faultOf (decode s.fetch) s = none →
      ∃ t, step s = .next t ∧ t.pc = pcAfter (decode s.fetch) s)

/-- R114: the timers at the end of a completed cycle: down by 1, floor at 0, from the value the execute phase left; in a
faulting or halted step they do not decay (the spec's decision D21). -/
def Obligations.TimersAtEndOfCycle : Prop :=
  ∀ s : State,
    (s.fault = .noFault → faultOf (decode s.fetch) s = none → ∃ t, step s = .next t ∧
      (∀ x, decode s.fetch = .ldDTVx x → t.dt.toNat = (s.readV x).toNat - 1) ∧
      ((∀ x, decode s.fetch ≠ .ldDTVx x) → t.dt.toNat = s.dt.toNat - 1) ∧
      (∀ x, decode s.fetch = .ldSTVx x → t.st.toNat = (s.readV x).toNat - 1) ∧
      ((∀ x, decode s.fetch ≠ .ldSTVx x) → t.st.toNat = s.st.toNat - 1)) ∧
    (s.fault ≠ .noFault ∨ faultOf (decode s.fetch) s ≠ none →
      ∃ t, step s = .next t ∧ t.dt = s.dt ∧ t.st = s.st)

/-- R114, over a run: through k completed cycles with no set-delay-timer among them, DT falls by k, floor at 0. -/
def Obligations.DelayTimerCountsCompletedCycles : Prop :=
  ∀ (k : Nat) (s t : State), core.run k s = .next t → t.fault = .noFault →
    (∀ j u, j < k → core.run j s = .next u → ∀ x, decode u.fetch ≠ .ldDTVx x) →
    t.dt.toNat = s.dt.toNat - k

/-! ## The invariant and reset -/

/-- Every step keeps the invariant: memory in canonical form, and a latch that tells the truth (R31, R244, R245). -/
def Obligations.StepKeepsInvariant : Prop :=
  ∀ s t : State, s.Inv → step s = .next t → t.Inv

/-- The invariant holds at reset. -/
def Obligations.ResetHasInvariant : Prop := State.reset.Inv

/-- The host's moves other than a step keep the invariant. -/
def Obligations.HostMovesKeepInvariant : Prop :=
  ∀ (m : DriverMove) (s t : State), m ≠ .step → s.Inv → drive m s = .next t → t.Inv

/-- R270, R271 (PC by the spec's decision D15): the reset values, at power-on and whenever the host resets, a halted core
included. (That an address at or above 4096, where there is no cell, reads 0 is the model's choice: log entry 7.) -/
def Obligations.ResetValues : Prop :=
  ∀ t : State, (t = State.reset ∨ ∃ s, t = driverReset s) →
    (∀ r, t.readV r = 0) ∧ t.i = 0 ∧ t.pc = 0x0200 ∧ t.sp.val = 0 ∧
    (∀ k (h : k < 16), t.stack[k] = 0) ∧ t.dt = 0 ∧ t.st = 0 ∧
    (∀ a, a < 0x050 ∨ 0x0A0 ≤ a → t.readByte a = 0) ∧
    (∀ j (h : j < 80), t.readByte (0x050 + j) = Config.font.getD j 0) ∧
    (∀ px py, t.pixel px py = false) ∧ (∀ k, t.readKey k = false) ∧
    t.fault = .noFault ∧ t.faultPc = 0 ∧ t.faultInfo = 0 ∧ t.running = false

/-- The default FONT table of R33, glyph by glyph, as reset memory holds it (general knowledge in the spec, its G3: log entry 3). -/
def Obligations.ResetFontBytes : Prop :=
  (List.range 80).map (fun j => (State.reset.readByte (0x050 + j)).toNat) =
    [0xF0, 0x90, 0x90, 0x90, 0xF0, 0x20, 0x60, 0x20, 0x20, 0x70, 0xF0, 0x10, 0xF0, 0x80, 0xF0,
     0xF0, 0x10, 0xF0, 0x10, 0xF0, 0x90, 0x90, 0xF0, 0x10, 0x10, 0xF0, 0x80, 0xF0, 0x10, 0xF0] ++
    [0xF0, 0x80, 0xF0, 0x90, 0xF0, 0xF0, 0x10, 0x20, 0x40, 0x40, 0xF0, 0x90, 0xF0, 0x90, 0xF0,
     0xF0, 0x90, 0xF0, 0x10, 0xF0, 0xF0, 0x90, 0xF0, 0x90, 0x90, 0xE0, 0x90, 0xE0, 0x90, 0xE0] ++
    [0xF0, 0x80, 0x80, 0x80, 0xF0, 0xE0, 0x90, 0x90, 0x90, 0xE0, 0xF0, 0x80, 0xF0, 0x80, 0xF0,
     0xF0, 0x80, 0xF0, 0x80, 0x80]

/-! ## Control flow -/

/-- R131, JP nnn. -/
def Obligations.JumpLoadsPc : Prop :=
  ∀ (nnn : Addr12) (s : State), decode (BitVec.ofNat 16 (0x1000 + nnn.toNat)) = .jp nnn ∧
    ∃ t, exec (.jp nnn) s = .next t ∧ t.pc.toNat = nnn.toNat ∧ Frame {} s t

/-- R133, JP V0, nnn: the 16-bit sum, not masked (the spec's decision D7); VF is no carry of it. -/
def Obligations.JumpWithOffsetAddsV0 : Prop :=
  ∀ (nnn : Addr12) (s : State), decode (BitVec.ofNat 16 (0xB000 + nnn.toNat)) = .jpV0 nnn ∧
    ∃ t, exec (.jpV0 nnn) s = .next t ∧ t.pc.toNat = (s.readV 0).toNat + nnn.toNat ∧ Frame {} s t

/-- R132, CALL nnn: the advanced PC is pushed; with SP = 16 the fault STACK_OVERFLOW (the spec's decision D5) and nothing else. -/
def Obligations.CallPushesReturnAddress : Prop :=
  ∀ (nnn : Addr12) (s : State), decode (BitVec.ofNat 16 (0x2000 + nnn.toNat)) = .call nnn ∧
    (s.sp.val < 16 → ∃ t, exec (.call nnn) s = .next t ∧ t.pc.toNat = nnn.toNat ∧
      t.sp.val = s.sp.val + 1 ∧ t.stack.toList[s.sp.val]? = some s.pc ∧
      Frame { sp := true, slot := fun k => k == s.sp.val } s t) ∧
    (s.sp.val = 16 →
      exec (.call nnn) s = .next
        (s.faulted .stackOverflow (s.pc - 2) (BitVec.ofNat 16 (0x2000 + nnn.toNat))))

/-- R130, RET: the popped slot keeps its value; with SP = 0 the fault STACK_UNDERFLOW (the spec's decision D5) and nothing else,
FAULT_INFO being the opcode. (That its ignored bits are part of it is the model's deduction: log entry 10.) -/
def Obligations.ReturnPopsAddress : Prop :=
  ∀ (ign : Byte) (s : State), decode (BitVec.ofNat 16 (0x000E + 16 * ign.toNat)) = .ret ign ∧
    (0 < s.sp.val → ∃ t, exec (.ret ign) s = .next t ∧ t.sp.val = s.sp.val - 1 ∧
      s.stack.toList[s.sp.val - 1]? = some t.pc ∧ Frame { sp := true } s t) ∧
    (s.sp.val = 0 →
      exec (.ret ign) s = .next
        (s.faulted .stackUnderflow (s.pc - 2) (BitVec.ofNat 16 (0x000E + 16 * ign.toNat))))

/-- R130, R132: a return undoes a call: it comes back to the address after the call, wherever PC has gone meanwhile. -/
def Obligations.ReturnUndoesCall : Prop :=
  ∀ (nnn : Addr12) (ign : Byte) (p : Word16) (s : State), s.sp.val < 16 →
    ∃ t u, exec (.call nnn) s = .next t ∧ exec (.ret ign) { t with pc := p } = .next u ∧
      u.pc = s.pc ∧ u.sp = s.sp

/-- R134, R135: SE and SNE Vx, kk. -/
def Obligations.SkipsOnImmediate : Prop :=
  ∀ (x : Nibble) (kk : Byte) (s : State),
    decode (BitVec.ofNat 16 (0x3000 + 256 * x.toNat + kk.toNat)) = .seImm x kk ∧
    decode (BitVec.ofNat 16 (0x4000 + 256 * x.toNat + kk.toNat)) = .sneImm x kk ∧
    (∃ t, exec (.seImm x kk) s = .next t ∧ Frame {} s t ∧
      t.pc.toNat = (s.pc.toNat + if (s.readV x).toNat = kk.toNat then 2 else 0) % 65536) ∧
    (∃ t, exec (.sneImm x kk) s = .next t ∧ Frame {} s t ∧
      t.pc.toNat = (s.pc.toNat + if (s.readV x).toNat = kk.toNat then 0 else 2) % 65536)

/-- R136, R137: SE and SNE Vx, Vy compare register values, not indices (the spec's decision D11). -/
def Obligations.SkipsOnRegisters : Prop :=
  ∀ (x y ign : Nibble) (s : State),
    decode (BitVec.ofNat 16 (0x5000 + 256 * x.toNat + 16 * y.toNat + ign.toNat)) = .seReg x y ign ∧
    decode (BitVec.ofNat 16 (0x9000 + 256 * x.toNat + 16 * y.toNat + ign.toNat)) = .sneReg x y ign ∧
    (∃ t, exec (.seReg x y ign) s = .next t ∧ Frame {} s t ∧
      t.pc.toNat = (s.pc.toNat + if (s.readV x).toNat = (s.readV y).toNat then 2 else 0) % 65536) ∧
    (∃ t, exec (.sneReg x y ign) s = .next t ∧ Frame {} s t ∧
      t.pc.toNat = (s.pc.toNat + if (s.readV x).toNat = (s.readV y).toNat then 0 else 2) % 65536)

/-! ## Register and arithmetic instructions -/

/-- R151, R153: LD Vx, kk and LD Vx, Vy. -/
def Obligations.LoadsWriteOneRegister : Prop :=
  ∀ (x y : Nibble) (kk : Byte) (s : State),
    decode (BitVec.ofNat 16 (0x6000 + 256 * x.toNat + kk.toNat)) = .ldImm x kk ∧
    decode (BitVec.ofNat 16 (0x8000 + 256 * x.toNat + 16 * y.toNat)) = .ldReg x y ∧
    (∃ t, exec (.ldImm x kk) s = .next t ∧ t.readV x = kk ∧ t.pc = s.pc ∧
      Frame { reg := fun r => r == x } s t) ∧
    (∃ t, exec (.ldReg x y) s = .next t ∧ t.readV x = s.readV y ∧ t.pc = s.pc ∧
      Frame { reg := fun r => r == x } s t)

/-- R152, ADD Vx, kk: 8-bit wraparound, no flag. -/
def Obligations.AddImmediateWraps : Prop :=
  ∀ (x : Nibble) (kk : Byte) (s : State),
    decode (BitVec.ofNat 16 (0x7000 + 256 * x.toNat + kk.toNat)) = .addImm x kk ∧
    ∃ t, exec (.addImm x kk) s = .next t ∧
      (t.readV x).toNat = ((s.readV x).toNat + kk.toNat) % 256 ∧ t.pc = s.pc ∧
      Frame { reg := fun r => r == x } s t

/-- R154 to R156: OR, AND, XOR bit by bit, no flag. -/
def Obligations.LogicIsBitwise : Prop :=
  ∀ (x y : Nibble) (s : State),
    decode (BitVec.ofNat 16 (0x8001 + 256 * x.toNat + 16 * y.toNat)) = .orReg x y ∧
    decode (BitVec.ofNat 16 (0x8002 + 256 * x.toNat + 16 * y.toNat)) = .andReg x y ∧
    decode (BitVec.ofNat 16 (0x8003 + 256 * x.toNat + 16 * y.toNat)) = .xorReg x y ∧
    (∃ t, exec (.orReg x y) s = .next t ∧ t.pc = s.pc ∧ Frame { reg := fun r => r == x } s t ∧
      ∀ b < 8, (t.readV x).getLsbD b = ((s.readV x).getLsbD b || (s.readV y).getLsbD b)) ∧
    (∃ t, exec (.andReg x y) s = .next t ∧ t.pc = s.pc ∧ Frame { reg := fun r => r == x } s t ∧
      ∀ b < 8, (t.readV x).getLsbD b = ((s.readV x).getLsbD b && (s.readV y).getLsbD b)) ∧
    (∃ t, exec (.xorReg x y) s = .next t ∧ t.pc = s.pc ∧ Frame { reg := fun r => r == x } s t ∧
      ∀ b < 8, (t.readV x).getLsbD b = ((s.readV x).getLsbD b ^^ (s.readV y).getLsbD b))

/-- R157, R150: ADD Vx, Vy: sum modulo 256, carry in VF, written last (the spec's decisions D9, D11). -/
def Obligations.AddRegistersSetsCarry : Prop :=
  ∀ (x y : Nibble) (s : State),
    decode (BitVec.ofNat 16 (0x8004 + 256 * x.toNat + 16 * y.toNat)) = .addReg x y ∧
    ∃ t, exec (.addReg x y) s = .next t ∧ t.pc = s.pc ∧
      (x ≠ 15 → (t.readV x).toNat = ((s.readV x).toNat + (s.readV y).toNat) % 256) ∧
      (t.readV 15).toNat = (if 255 < (s.readV x).toNat + (s.readV y).toNat then 1 else 0) ∧
      Frame { reg := fun r => r == x || r == 15 } s t

/-- R158, R159, R150: SUB and SUBN: difference modulo 256; VF = 1 iff the minuend is strictly greater, written last (the spec's
decisions D9, D11). -/
def Obligations.SubtractSetsStrictGreater : Prop :=
  ∀ (x y : Nibble) (s : State),
    decode (BitVec.ofNat 16 (0x8005 + 256 * x.toNat + 16 * y.toNat)) = .subReg x y ∧
    decode (BitVec.ofNat 16 (0x8007 + 256 * x.toNat + 16 * y.toNat)) = .subnReg x y ∧
    (∃ t, exec (.subReg x y) s = .next t ∧ t.pc = s.pc ∧
      (x ≠ 15 → (t.readV x).toNat = ((s.readV x).toNat + 256 - (s.readV y).toNat) % 256) ∧
      (t.readV 15).toNat = (if (s.readV y).toNat < (s.readV x).toNat then 1 else 0) ∧
      Frame { reg := fun r => r == x || r == 15 } s t) ∧
    (∃ t, exec (.subnReg x y) s = .next t ∧ t.pc = s.pc ∧
      (x ≠ 15 → (t.readV x).toNat = ((s.readV y).toNat + 256 - (s.readV x).toNat) % 256) ∧
      (t.readV 15).toNat = (if (s.readV x).toNat < (s.readV y).toNat then 1 else 0) ∧
      Frame { reg := fun r => r == x || r == 15 } s t)

/-- R160, R161, R150: SHR and SHL shift V[x] in place, y ignored (the spec's decision D10); VF = the bit shifted out, written
last. -/
def Obligations.ShiftsSetBitShiftedOut : Prop :=
  ∀ (x ign : Nibble) (s : State),
    decode (BitVec.ofNat 16 (0x8006 + 256 * x.toNat + 16 * ign.toNat)) = .shr x ign ∧
    decode (BitVec.ofNat 16 (0x800E + 256 * x.toNat + 16 * ign.toNat)) = .shl x ign ∧
    (∃ t, exec (.shr x ign) s = .next t ∧ t.pc = s.pc ∧
      (x ≠ 15 → (t.readV x).toNat = (s.readV x).toNat / 2) ∧
      (t.readV 15).toNat = (s.readV x).toNat % 2 ∧
      Frame { reg := fun r => r == x || r == 15 } s t) ∧
    (∃ t, exec (.shl x ign) s = .next t ∧ t.pc = s.pc ∧
      (x ≠ 15 → (t.readV x).toNat = (s.readV x).toNat * 2 % 256) ∧
      (t.readV 15).toNat = (s.readV x).toNat / 128 ∧
      Frame { reg := fun r => r == x || r == 15 } s t)

/-- R162, RND Vx, kk: the draw and kk. The draw is the free value `Config.rnd` at the count of draws, which the instruction
advances (the model's form of the step input `rnd` of R8: log entry 1); the statement holds whatever it is. -/
def Obligations.RandomAndMasksDraw : Prop :=
  ∀ (x : Nibble) (kk : Byte) (s : State),
    decode (BitVec.ofNat 16 (0xC000 + 256 * x.toNat + kk.toNat)) = .rnd x kk ∧
    ∃ t, exec (.rnd x kk) s = .next t ∧ t.pc = s.pc ∧ t.draws = s.draws + 1 ∧
      (∀ b < 8, (t.readV x).getLsbD b = ((Config.rnd s.draws).getLsbD b && kk.getLsbD b)) ∧
      Frame { reg := fun r => r == x, draws := true } s t

/-- R21: who writes VF. A form other than the six flag writers leaves VF alone unless its x field is 15 (for register-load,
x = 15); and each of the six, when it completes, leaves VF at 0 or 1. -/
def Obligations.OnlyFlagWritersWriteVF : Prop :=
  ∀ (i : Instr) (s t : State), exec i s = .next t →
    (writesFlag i = false → xField i ≠ some 15 → t.readV 15 = s.readV 15) ∧
    (writesFlag i = true → faultOf i s = none → t.readV 15 = 0 ∨ t.readV 15 = 1)

/-! ## Index register and memory -/

/-- R180, LD I, nnn. -/
def Obligations.SetIndexLoadsI : Prop :=
  ∀ (nnn : Addr12) (s : State), decode (BitVec.ofNat 16 (0xA000 + nnn.toNat)) = .ldI nnn ∧
    ∃ t, exec (.ldI nnn) s = .next t ∧ t.i.toNat = nnn.toNat ∧ t.pc = s.pc ∧
      Frame { index := true } s t

/-- R181, R182: ADD I, Vx wraps modulo 65536 with no flag (the spec's decision D8); LD F, Vx points at the glyph of the low nibble
(the spec's decisions D13, D14). -/
def Obligations.IndexFromRegister : Prop :=
  ∀ (x : Nibble) (s : State),
    decode (BitVec.ofNat 16 (0xF01E + 256 * x.toNat)) = .addIVx x ∧
    decode (BitVec.ofNat 16 (0xF029 + 256 * x.toNat)) = .ldFVx x ∧
    (∃ t, exec (.addIVx x) s = .next t ∧ t.pc = s.pc ∧
      t.i.toNat = (s.i.toNat + (s.readV x).toNat) % 65536 ∧ Frame { index := true } s t) ∧
    (∃ t, exec (.ldFVx x) s = .next t ∧ t.pc = s.pc ∧
      t.i.toNat = 0x0050 + 5 * ((s.readV x).toNat % 16) ∧ Frame { index := true } s t)

/-- R183, LD B, Vx: the three digits, which round-trip; with I + 2 > 0xFFF the address fault and not one byte written. -/
def Obligations.StoreBcdWritesDigits : Prop :=
  ∀ (x : Nibble) (s : State), decode (BitVec.ofNat 16 (0xF033 + 256 * x.toNat)) = .ldBVx x ∧
    (s.i.toNat + 2 ≤ 0xFFF → ∃ t, exec (.ldBVx x) s = .next t ∧ t.pc = s.pc ∧
      (t.readByte s.i.toNat).toNat = (s.readV x).toNat / 100 ∧
      (t.readByte (s.i.toNat + 1)).toNat = (s.readV x).toNat / 10 % 10 ∧
      (t.readByte (s.i.toNat + 2)).toNat = (s.readV x).toNat % 10 ∧
      100 * (t.readByte s.i.toNat).toNat + 10 * (t.readByte (s.i.toNat + 1)).toNat +
        (t.readByte (s.i.toNat + 2)).toNat = (s.readV x).toNat ∧
      Frame { byte := fun a => s.i.toNat ≤ a && a < s.i.toNat + 3 } s t) ∧
    (0xFFF < s.i.toNat + 2 → exec (.ldBVx x) s = .next
      (s.faulted .addressOutOfRange (s.pc - 2) (BitVec.ofNat 16 (max s.i.toNat 0x1000))))

/-- R184, LD [I], Vx: registers 0..=x to MEM[I..], I unchanged; with I + x > 0xFFF the address fault and not one byte written. -/
def Obligations.RegisterDumpStoresRegisters : Prop :=
  ∀ (x : Nibble) (s : State), decode (BitVec.ofNat 16 (0xF055 + 256 * x.toNat)) = .ldMemVx x ∧
    (s.i.toNat + x.toNat ≤ 0xFFF → ∃ t, exec (.ldMemVx x) s = .next t ∧ t.pc = s.pc ∧
      (∀ k : Nibble, k.toNat ≤ x.toNat → t.readByte (s.i.toNat + k.toNat) = s.readV k) ∧
      Frame { byte := fun a => s.i.toNat ≤ a && a < s.i.toNat + (x.toNat + 1) } s t) ∧
    (0xFFF < s.i.toNat + x.toNat → exec (.ldMemVx x) s = .next
      (s.faulted .addressOutOfRange (s.pc - 2) (BitVec.ofNat 16 (max s.i.toNat 0x1000))))

/-- R185, LD Vx, [I]: registers 0..=x from MEM[I..], the others, I and memory unchanged; with I + x > 0xFFF the address fault and
no register written. -/
def Obligations.RegisterLoadReadsMemory : Prop :=
  ∀ (x : Nibble) (s : State), decode (BitVec.ofNat 16 (0xF065 + 256 * x.toNat)) = .ldVxMem x ∧
    (s.i.toNat + x.toNat ≤ 0xFFF → ∃ t, exec (.ldVxMem x) s = .next t ∧ t.pc = s.pc ∧
      (∀ k : Nibble, k.toNat ≤ x.toNat → t.readV k = s.readByte (s.i.toNat + k.toNat)) ∧
      Frame { reg := fun r => r.toNat ≤ x.toNat } s t) ∧
    (0xFFF < s.i.toNat + x.toNat → exec (.ldVxMem x) s = .next
      (s.faulted .addressOutOfRange (s.pc - 2) (BitVec.ofNat 16 (max s.i.toNat 0x1000))))

/-- R185's last law: a dump followed by a load with the same I and x gives the registers back, whatever else changed meanwhile. -/
def Obligations.LoadUndoesDump : Prop :=
  ∀ (x : Nibble) (s : State), s.i.toNat + x.toNat ≤ 0xFFF →
    ∃ t, exec (.ldMemVx x) s = .next t ∧
      ∀ t' : State, t'.i = t.i → t'.mem = t.mem →
        ∃ u, exec (.ldVxMem x) t' = .next u ∧ ∀ k : Nibble, k.toNat ≤ x.toNat → u.readV k = s.readV k

/-- R55, R61: two bytes stored by register-dump are fetched by the next cycle with V[0] as the high byte, wherever PC selects
them. -/
def Obligations.StoredBytesAreFetched : Prop :=
  ∀ (s : State) (p : Word16), s.i.toNat + 1 ≤ 0xFFF → p.toNat % 4096 = s.i.toNat →
    ∃ t, exec (.ldMemVx 1) s = .next t ∧
      State.fetch { t with pc := p } = (s.readV 0) ++ (s.readV 1)

/-- The host's placement of an opcode: the next cycle fetches it, and nothing but its two bytes of memory changes (the model's
own operation: log entry 8). -/
def Obligations.PlacedWordIsFetched : Prop :=
  ∀ (s : State) (w : Nat), w < 65536 →
    (s.withFetchWord 16 w).fetch.toNat = w ∧ (s.withFetchWord 16 w).pc = s.pc ∧
    Frame { byte := fun a => a == s.pc.toNat % 4096 || a == (s.pc.toNat + 1) % 4096 } s
      (s.withFetchWord 16 w)

/-- Equal memories are equal data: two canonical memories that read alike everywhere are the same list. -/
def Obligations.CanonicalMemoriesAreEqual : Prop :=
  ∀ m m' : Memory, Memory.wf m = true → Memory.wf m' = true →
    (∀ a, Memory.read m a = Memory.read m' a) → m = m'

/-! ## Display -/

/-- R200, CLS: every pixel off, whatever it was; VF not written. -/
def Obligations.ClearScreenClearsAll : Prop :=
  ∀ (ign : Byte) (s : State), decode (BitVec.ofNat 16 (0x0000 + 16 * ign.toNat)) = .cls ign ∧
    ∃ t, exec (.cls ign) s = .next t ∧ t.pc = s.pc ∧ (∀ px py, t.pixel px py = false) ∧
      Frame { screen := true } s t

/-- R201, R202, DRW Vx, Vy, n (bit order by the spec's decision D16, n = 0 by D27): exactly the pixels under a set bit are toggled, each
coordinate wrapped; VF says whether one of them was on; an out-of-range sprite row is the address fault, with no pixel changed. -/
def Obligations.DrawXorsSpriteAndSetsCollision : Prop :=
  ∀ (x y n : Nibble) (s : State),
    decode (BitVec.ofNat 16 (0xD000 + 256 * x.toNat + 16 * y.toNat + n.toNat)) = .drw x y n ∧
    (n.toNat = 0 ∨ s.i.toNat + n.toNat - 1 ≤ 0xFFF → ∃ t, exec (.drw x y n) s = .next t ∧ t.pc = s.pc ∧
      (∀ px py, s.spriteCovers (s.readV x) (s.readV y) n.toNat px py → t.pixel px py = !s.pixel px py) ∧
      (∀ px py, ¬ s.spriteCovers (s.readV x) (s.readV y) n.toNat px py → t.pixel px py = s.pixel px py) ∧
      ((∃ px py, s.spriteCovers (s.readV x) (s.readV y) n.toNat px py ∧ s.pixel px py = true) →
        t.readV 15 = 1) ∧
      ((¬ ∃ px py, s.spriteCovers (s.readV x) (s.readV y) n.toNat px py ∧ s.pixel px py = true) →
        t.readV 15 = 0) ∧
      Frame { reg := fun r => r == 15, screen := true } s t) ∧
    (0 < n.toNat ∧ 0xFFF < s.i.toNat + n.toNat - 1 → exec (.drw x y n) s = .next
      (s.faulted .addressOutOfRange (s.pc - 2) (BitVec.ofNat 16 (max s.i.toNat 0x1000))))

/-- R203 (a): drawing the same sprite twice restores the framebuffer, and the second flag says whether a covered pixel was off before
the first draw. -/
def Obligations.DrawTwiceRestoresScreen : Prop :=
  ∀ (x y n : Nibble) (s : State), x ≠ 15 → y ≠ 15 → (n.toNat = 0 ∨ s.i.toNat + n.toNat - 1 ≤ 0xFFF) →
    ∃ t u, exec (.drw x y n) s = .next t ∧ exec (.drw x y n) t = .next u ∧ u.fb = s.fb ∧
      (u.readV 15 = 1 ↔
        ∃ px py, s.spriteCovers (s.readV x) (s.readV y) n.toNat px py ∧ s.pixel px py = false)

/-! ## Keypad and timers -/

/-- R220, R221: SKP and SKNP test the key of the low nibble (the spec's decision D12). -/
def Obligations.KeySkipsTestKey : Prop :=
  ∀ (x ign k : Nibble) (s : State), k.toNat = (s.readV x).toNat % 16 →
    decode (BitVec.ofNat 16 (0xE00E + 256 * x.toNat + 16 * ign.toNat)) = .skp x ign ∧
    decode (BitVec.ofNat 16 (0xE001 + 256 * x.toNat + 16 * ign.toNat)) = .sknp x ign ∧
    (∃ t, exec (.skp x ign) s = .next t ∧ Frame {} s t ∧
      t.pc.toNat = (s.pc.toNat + if s.readKey k then 2 else 0) % 65536) ∧
    (∃ t, exec (.sknp x ign) s = .next t ∧ Frame {} s t ∧
      t.pc.toNat = (s.pc.toNat + if s.readKey k then 0 else 2) % 65536)

/-- R222, LD Vx, K: the least pressed key's index; with none pressed, PC is rewound to the instruction and nothing else changes. -/
def Obligations.WaitForKeyTakesLowestKey : Prop :=
  ∀ (x : Nibble) (s : State), decode (BitVec.ofNat 16 (0xF00A + 256 * x.toNat)) = .ldVxK x ∧
    (∀ k : Nibble, s.readKey k = true → (∀ j : Nibble, j.toNat < k.toNat → s.readKey j = false) →
      ∃ t, exec (.ldVxK x) s = .next t ∧ (t.readV x).toNat = k.toNat ∧ t.pc = s.pc ∧
        Frame { reg := fun r => r == x } s t) ∧
    ((∀ k, s.readKey k = false) →
      ∃ t, exec (.ldVxK x) s = .next t ∧ t.pc.toNat = (s.pc.toNat + 65536 - 2) % 65536 ∧ Frame {} s t)

/-- R222, R114: while no key is pressed a core at LD Vx, K stays there for any number of cycles; its timers keep counting and all else
but RUNNING stays. -/
def Obligations.KeyWaitStallsWhileTimersCount : Prop :=
  ∀ (n : Nat) (x : Nibble) (s : State), s.fault = .noFault → decode s.fetch = .ldVxK x →
    (∀ k, s.readKey k = false) →
    ∃ t, core.run n s = .next t ∧ t = { s with dt := t.dt, st := t.st, running := t.running } ∧
      t.dt.toNat = s.dt.toNat - n ∧ t.st.toNat = s.st.toNat - n

/-- R223, LD Vx, DT: DT before the cycle's decay, which then happens. -/
def Obligations.GetDelayTimerReadsBeforeDecay : Prop :=
  ∀ (x : Nibble) (s : State), decode (BitVec.ofNat 16 (0xF007 + 256 * x.toNat)) = .ldVxDT x ∧
    (∃ t, exec (.ldVxDT x) s = .next t ∧ t.readV x = s.dt ∧ t.pc = s.pc ∧
      Frame { reg := fun r => r == x } s t) ∧
    (s.fault = .noFault → decode s.fetch = .ldVxDT x →
      ∃ t, step s = .next t ∧ t.readV x = s.dt ∧ t.dt.toNat = s.dt.toNat - 1)

/-- R224, R225: LD DT, Vx and LD ST, Vx. (What the same cycle's decay then leaves is `TimersAtEndOfCycle`.) -/
def Obligations.SetTimersFromRegister : Prop :=
  ∀ (x : Nibble) (s : State),
    decode (BitVec.ofNat 16 (0xF015 + 256 * x.toNat)) = .ldDTVx x ∧
    decode (BitVec.ofNat 16 (0xF018 + 256 * x.toNat)) = .ldSTVx x ∧
    (∃ t, exec (.ldDTVx x) s = .next t ∧ t.dt = s.readV x ∧ t.pc = s.pc ∧ Frame { delay := true } s t) ∧
    (∃ t, exec (.ldSTVx x) s = .next t ∧ t.st = s.readV x ∧ t.pc = s.pc ∧ Frame { sound := true } s t)

/-! ## The no-op fallback -/

/-- R116: the words of families 0x0, 0x8, 0xE and 0xF whose selector R86 to R89 do not map are no-ops: the execute phase completes and
changes nothing, and the cycle around it is complete. -/
def Obligations.UnmappedWordsAreNoOps : Prop :=
  (∀ (ign : Byte) (x sel : Nibble) (sel8 : Byte) (s : State),
    exec (.nop0 ign sel) s = .next s ∧ exec (.nop8 ign sel) s = .next s ∧
    exec (.nopE ign sel) s = .next s ∧ exec (.nopF x sel8) s = .next s) ∧
  ∀ s : State, s.fault = .noFault →
    ((s.fetch.toNat / 4096 = 0x0 ∧ s.fetch.toNat % 16 ∉ [0x0, 0xE]) ∨
     (s.fetch.toNat / 4096 = 0x8 ∧ s.fetch.toNat % 16 ∉ [0, 1, 2, 3, 4, 5, 6, 7, 0xE]) ∨
     (s.fetch.toNat / 4096 = 0xE ∧ s.fetch.toNat % 16 ∉ [0xE, 0x1]) ∨
     (s.fetch.toNat / 4096 = 0xF ∧
       s.fetch.toNat % 256 ∉ [0x07, 0x0A, 0x15, 0x18, 0x1E, 0x29, 0x33, 0x55, 0x65])) →
    ∃ t, step s = .next t ∧ t.pc = s.pc + 2 ∧ t.dt.toNat = s.dt.toNat - 1 ∧
      t.st.toNat = s.st.toNat - 1 ∧ t = { s with pc := t.pc, dt := t.dt, st := t.st, running := true }

/-! ## Whole-machine rules -/

/-- R24, R25, R29, R30: who writes each piece of state, over all instructions: the framebuffer only CLS and DRW; K nobody; I only LD I,
ADD I and LD F; a stack slot only CALL, the one at SP; SP only CALL and RET. -/
def Obligations.WritersOfEachPieceOfState : Prop :=
  ∀ s t : State, step s = .next t →
    (t.fb ≠ s.fb → (∃ ign, decode s.fetch = .cls ign) ∨ ∃ x y n, decode s.fetch = .drw x y n) ∧
    t.keys = s.keys ∧
    (t.i ≠ s.i → (∃ nnn, decode s.fetch = .ldI nnn) ∨ (∃ x, decode s.fetch = .addIVx x) ∨
      ∃ x, decode s.fetch = .ldFVx x) ∧
    (∀ k (h : k < 16), t.stack[k] ≠ s.stack[k] → k = s.sp.val ∧ ∃ nnn, decode s.fetch = .call nnn) ∧
    (t.sp ≠ s.sp → (∃ nnn, decode s.fetch = .call nnn) ∨ ∃ ign, decode s.fetch = .ret ign)

/-- R56: a step changes a byte of memory only by store-BCD, in I..I+2, or by register-dump, in I..I+x. -/
def Obligations.MemoryWrittenOnlyByStores : Prop :=
  ∀ (s t : State) (a : Nat), step s = .next t → t.readByte a ≠ s.readByte a →
    (∃ x, decode s.fetch = .ldBVx x ∧ s.i.toNat ≤ a ∧ a ≤ s.i.toNat + 2) ∨
    (∃ x, decode s.fetch = .ldMemVx x ∧ s.i.toNat ≤ a ∧ a ≤ s.i.toNat + x.toNat)

/-- R26: no instruction reads ST: two cores that differ only in ST still differ only in ST after a step. -/
def Obligations.SoundTimerIsNeverRead : Prop :=
  ∀ (s t : State) (b : Byte), step s = .next t → ∃ c, step { s with st := b } = .next { t with st := c }

/-- R30, R118: K is read only by SKP, SKNP and LD Vx, K: under any other instruction, other keys give the same step. -/
def Obligations.KeysReadOnlyByKeyInstructions : Prop :=
  ∀ (s t : State) (ks : Vector Bool 16), step s = .next t →
    (∀ x ign, decode s.fetch ≠ .skp x ign) → (∀ x ign, decode s.fetch ≠ .sknp x ign) →
    (∀ x, decode s.fetch ≠ .ldVxK x) → step { s with keys := ks } = .next { t with keys := ks }

/-- R8, R162: the random byte is read only by RND: under any other instruction, the draw that would come next has no effect and is not
consumed (the count of draws is the model's own field: log entry 1). -/
def Obligations.DrawsReadOnlyByRandomAnd : Prop :=
  ∀ (s t : State) (d : Nat), step s = .next t → (∀ x kk, decode s.fetch ≠ .rnd x kk) →
    t.draws = s.draws ∧ step { s with draws := d } = .next { t with draws := d }

/-! ## The host's moves -/

/-- R275 (the spec's decision D20; that a second load is refused before the first step too is log entry 5): a ROM of at most 3584 bytes is
copied verbatim to 0x200 and nothing else changes; a longer one is answered ROM_TOO_LARGE with no state changed; after the first step, or
after a load, the move is refused. -/
def Obligations.LoadRomContract : Prop :=
  ∀ (bytes : List Byte) (s : State),
    (s.running = false → s.romLoaded = false → bytes.length ≤ 3584 →
      ∃ t, loadRom bytes s = .next (.ok, t) ∧ t = { s with mem := t.mem, romLoaded := true } ∧
        (∀ j (h : j < bytes.length), t.readByte (0x200 + j) = bytes[j]) ∧
        (∀ a, a < 0x200 ∨ 0x200 + bytes.length ≤ a → t.readByte a = s.readByte a)) ∧
    (s.running = false → s.romLoaded = false → 3584 < bytes.length →
      loadRom bytes s = .next (.romTooLarge, s)) ∧
    (s.running = true → loadRom bytes s = .refused .romLoadAfterStart) ∧
    (s.running = false → s.romLoaded = true → loadRom bytes s = .refused .secondRomLoad)

/-- R30, R252: writing the keys changes K and nothing else, and the three key instructions see the value last written. -/
def Obligations.WriteKeysWritesKeysOnly : Prop :=
  ∀ (ks : Vector Bool 16) (s : State) (k : Nibble),
    (writeKeys ks s).readKey k = ks.toList.getD k.toNat false ∧
    writeKeys ks s = { s with keys := (writeKeys ks s).keys }
end

