-- ==== Sys2Proof/Laws/Encoding.lean ====
section
/-! SUPPORT. Each field read back from each word format (R82, R83), and the two bytes of a word. -/

namespace Sys2Proof

/-! ## Format A -/

theorem opFam_fmtA (f : Nibble) (nnn : Addr12) : opFam (fmtA f nnn) = f := by
  refine BitVec.eq_of_getLsbD_eq fun i hi => ?_
  simp only [opFam, fmtA, BitVec.getLsbD_append, BitVec.getLsbD_extractLsb']
  interval_cases i <;> simp

theorem opNNN_fmtA (f : Nibble) (nnn : Addr12) : opNNN (fmtA f nnn) = nnn := by
  refine BitVec.eq_of_getLsbD_eq fun i hi => ?_
  simp only [opNNN, fmtA, BitVec.getLsbD_append, BitVec.getLsbD_extractLsb']
  interval_cases i <;> simp

/-! ## Formats XI and XS8 -/

theorem opFam_fmtXI (f x : Nibble) (kk : Byte) : opFam (fmtXI f x kk) = f := by
  refine BitVec.eq_of_getLsbD_eq fun i hi => ?_
  simp only [opFam, fmtXI, BitVec.getLsbD_append, BitVec.getLsbD_extractLsb']
  interval_cases i <;> simp

theorem opX_fmtXI (f x : Nibble) (kk : Byte) : opX (fmtXI f x kk) = x := by
  refine BitVec.eq_of_getLsbD_eq fun i hi => ?_
  simp only [opX, fmtXI, BitVec.getLsbD_append, BitVec.getLsbD_extractLsb']
  interval_cases i <;> simp

theorem opKK_fmtXI (f x : Nibble) (kk : Byte) : opKK (fmtXI f x kk) = kk := by
  refine BitVec.eq_of_getLsbD_eq fun i hi => ?_
  simp only [opKK, fmtXI, BitVec.getLsbD_append, BitVec.getLsbD_extractLsb']
  interval_cases i <;> simp

/-! ## Formats XY, XYS, XYN, XS4 -/

theorem opFam_fmtXYN (f x y n : Nibble) : opFam (fmtXYN f x y n) = f := by
  refine BitVec.eq_of_getLsbD_eq fun i hi => ?_
  simp only [opFam, fmtXYN, BitVec.getLsbD_append, BitVec.getLsbD_extractLsb']
  interval_cases i <;> simp

theorem opX_fmtXYN (f x y n : Nibble) : opX (fmtXYN f x y n) = x := by
  refine BitVec.eq_of_getLsbD_eq fun i hi => ?_
  simp only [opX, fmtXYN, BitVec.getLsbD_append, BitVec.getLsbD_extractLsb']
  interval_cases i <;> simp

theorem opY_fmtXYN (f x y n : Nibble) : opY (fmtXYN f x y n) = y := by
  refine BitVec.eq_of_getLsbD_eq fun i hi => ?_
  simp only [opY, fmtXYN, BitVec.getLsbD_append, BitVec.getLsbD_extractLsb']
  interval_cases i <;> simp

theorem opN_fmtXYN (f x y n : Nibble) : opN (fmtXYN f x y n) = n := by
  refine BitVec.eq_of_getLsbD_eq fun i hi => ?_
  simp only [opN, fmtXYN, BitVec.getLsbD_append, BitVec.getLsbD_extractLsb']
  interval_cases i <;> simp

/-! ## Format Z and the no-op rows -/

theorem opFam_fmtZ (f : Nibble) (mid : Byte) (n : Nibble) : opFam (fmtZ f mid n) = f := by
  refine BitVec.eq_of_getLsbD_eq fun i hi => ?_
  simp only [opFam, fmtZ, BitVec.getLsbD_append, BitVec.getLsbD_extractLsb']
  interval_cases i <;> simp

theorem opMid_fmtZ (f : Nibble) (mid : Byte) (n : Nibble) : opMid (fmtZ f mid n) = mid := by
  refine BitVec.eq_of_getLsbD_eq fun i hi => ?_
  simp only [opMid, fmtZ, BitVec.getLsbD_append, BitVec.getLsbD_extractLsb']
  interval_cases i <;> simp

theorem opN_fmtZ (f : Nibble) (mid : Byte) (n : Nibble) : opN (fmtZ f mid n) = n := by
  refine BitVec.eq_of_getLsbD_eq fun i hi => ?_
  simp only [opN, fmtZ, BitVec.getLsbD_append, BitVec.getLsbD_extractLsb']
  interval_cases i <;> simp

/-! ## Words rebuilt from their fields -/

theorem fmtA_fields (w : Word16) : fmtA (opFam w) (opNNN w) = w := by
  refine BitVec.eq_of_getLsbD_eq fun i hi => ?_
  simp only [fmtA, opFam, opNNN, BitVec.getLsbD_append, BitVec.getLsbD_extractLsb']
  interval_cases i <;> simp

theorem fmtXI_fields (w : Word16) : fmtXI (opFam w) (opX w) (opKK w) = w := by
  refine BitVec.eq_of_getLsbD_eq fun i hi => ?_
  simp only [fmtXI, opFam, opX, opKK, BitVec.getLsbD_append, BitVec.getLsbD_extractLsb']
  interval_cases i <;> simp

theorem fmtXYN_fields (w : Word16) : fmtXYN (opFam w) (opX w) (opY w) (opN w) = w := by
  refine BitVec.eq_of_getLsbD_eq fun i hi => ?_
  simp only [fmtXYN, opFam, opX, opY, opN, BitVec.getLsbD_append, BitVec.getLsbD_extractLsb']
  interval_cases i <;> simp

theorem fmtZ_fields (w : Word16) : fmtZ (opFam w) (opMid w) (opN w) = w := by
  refine BitVec.eq_of_getLsbD_eq fun i hi => ?_
  simp only [fmtZ, opFam, opMid, opN, BitVec.getLsbD_append, BitVec.getLsbD_extractLsb']
  interval_cases i <;> simp

theorem wordOfBytes_bytes (w : Word16) : wordOfBytes (highByte w) (lowByte w) = w := by
  refine BitVec.eq_of_getLsbD_eq fun i hi => ?_
  simp only [wordOfBytes, highByte, lowByte, BitVec.getLsbD_append, BitVec.getLsbD_extractLsb']
  interval_cases i <;> simp

/-- Reading the bytes of a word gives the word's instruction and leaves the rest. -/
theorem decodeBytes_bytesOfWord (w : Word16) (rest : List Byte) :
    decodeBytes (bytesOfWord w ++ rest) = .ok (decode w, rest) := by
  simp [bytesOfWord, decodeBytes, wordOfBytes_bytes]

/-! ## The selecting bits of a word, by format -/

theorem mask_fmtA (f : Nibble) (nnn : Addr12) :
    fmtA f nnn &&& 0xF000 = f.setWidth 16 <<< 12 := by
  refine BitVec.eq_of_getLsbD_eq fun i hi => ?_
  simp only [fmtA, BitVec.getLsbD_and, BitVec.getLsbD_append]
  interval_cases i <;> simp

theorem mask_fmtXI (f x : Nibble) (kk : Byte) :
    fmtXI f x kk &&& 0xF000 = f.setWidth 16 <<< 12 := by
  refine BitVec.eq_of_getLsbD_eq fun i hi => ?_
  simp only [fmtXI, BitVec.getLsbD_and, BitVec.getLsbD_append]
  interval_cases i <;> simp

theorem mask_fmtXI_kk (f x : Nibble) (kk : Byte) :
    fmtXI f x kk &&& 0xF0FF = f.setWidth 16 <<< 12 ||| kk.setWidth 16 := by
  refine BitVec.eq_of_getLsbD_eq fun i hi => ?_
  simp only [fmtXI, BitVec.getLsbD_and, BitVec.getLsbD_append]
  interval_cases i <;> simp

theorem mask_fmtXYN (f x y n : Nibble) :
    fmtXYN f x y n &&& 0xF000 = f.setWidth 16 <<< 12 := by
  refine BitVec.eq_of_getLsbD_eq fun i hi => ?_
  simp only [fmtXYN, BitVec.getLsbD_and, BitVec.getLsbD_append]
  interval_cases i <;> simp

theorem mask_fmtXYN_n (f x y n : Nibble) :
    fmtXYN f x y n &&& 0xF00F = f.setWidth 16 <<< 12 ||| n.setWidth 16 := by
  refine BitVec.eq_of_getLsbD_eq fun i hi => ?_
  simp only [fmtXYN, BitVec.getLsbD_and, BitVec.getLsbD_append]
  interval_cases i <;> simp

theorem mask_fmtZ (f : Nibble) (mid : Byte) (n : Nibble) :
    fmtZ f mid n &&& 0xF00F = f.setWidth 16 <<< 12 ||| n.setWidth 16 := by
  refine BitVec.eq_of_getLsbD_eq fun i hi => ?_
  simp only [fmtZ, BitVec.getLsbD_and, BitVec.getLsbD_append]
  interval_cases i <;> simp

/-! ## Words as numbers -/

theorem append_toNat {v w : Nat} (a : BitVec v) (b : BitVec w) :
    (a ++ b).toNat = a.toNat * 2 ^ w + b.toNat := by
  rw [BitVec.toNat_append, ← Nat.shiftLeft_add_eq_or_of_lt b.isLt, Nat.shiftLeft_eq]

theorem fmtA_toNat (f : Nibble) (nnn : Addr12) :
    (fmtA f nnn).toNat = 4096 * f.toNat + nnn.toNat := by
  rw [fmtA, append_toNat]; omega

theorem fmtXI_toNat (f x : Nibble) (kk : Byte) :
    (fmtXI f x kk).toNat = 4096 * f.toNat + 256 * x.toNat + kk.toNat := by
  rw [fmtXI, append_toNat, append_toNat]; omega

theorem fmtXYN_toNat (f x y n : Nibble) :
    (fmtXYN f x y n).toNat = 4096 * f.toNat + 256 * x.toNat + 16 * y.toNat + n.toNat := by
  rw [fmtXYN, append_toNat, append_toNat, append_toNat]; omega

theorem fmtZ_toNat (f : Nibble) (mid : Byte) (n : Nibble) :
    (fmtZ f mid n).toNat = 4096 * f.toNat + 16 * mid.toNat + n.toNat := by
  rw [fmtZ, append_toNat, append_toNat]; omega

/-- A word is the number it is. -/
theorem word_eq_ofNat {w : Word16} {k : Nat} (h : w.toNat = k) : w = BitVec.ofNat 16 k := by
  rw [← h, BitVec.ofNat_toNat, BitVec.setWidth_eq]

end Sys2Proof
end

