-- ==== Sys2Proof/Laws/Memory.lean ====
section
/-! SUPPORT. Memory: reads after writes, and that every operation keeps the canonical form. -/

namespace Sys2Proof.Machine

/-! ## Reads after writes (R56) -/

theorem Memory.read_place (m : Memory) (a : Nat) (v : Byte) (b : Nat) :
    Memory.read (Memory.place m a v) b = if b = a then v else Memory.read m b := by
  induction m with
  | nil => rfl
  | cons c m ih =>
    obtain ⟨k, w⟩ := c
    simp only [Memory.place]
    split
    · rfl
    · split
      · subst_vars
        simp only [Memory.read]
        split <;> rfl
      · simp only [Memory.read, ih]
        split
        · subst_vars
          rw [if_neg (by omega)]
        · rfl

theorem Memory.read_unplace (m : Memory) (a b : Nat) :
    Memory.read (Memory.unplace m a) b = if b = a then Memory.resetByte a else Memory.read m b := by
  unfold Memory.unplace
  induction m with
  | nil => simp only [List.filter_nil, Memory.read]; split <;> simp_all
  | cons c m ih =>
    obtain ⟨k, w⟩ := c
    by_cases hk : k = a
    · rw [List.filter_cons_of_neg (by simp [hk]), ih]
      simp only [Memory.read]
      split
      · rfl
      · rw [if_neg (by omega)]
    · rw [List.filter_cons_of_pos (by simp [hk])]
      simp only [Memory.read, ih]
      by_cases hb : b = k
      · rw [if_pos hb, if_neg (by omega), if_pos hb]
      · rw [if_neg hb, if_neg hb]

/-- The law of plain storage: a read gives the last byte written there (R56), below 4096. -/
theorem Memory.read_write (m : Memory) (a : Nat) (v : Byte) (b : Nat) (ha : a < Config.memSize) :
    Memory.read (Memory.write m a v) b = if b = a then v else Memory.read m b := by
  unfold Memory.write
  rw [if_neg (by omega)]
  split
  · rename_i h
    rw [Memory.read_unplace, h]
  · exact Memory.read_place m a v b

/-- A write leaves every other address alone, wherever it goes. -/
theorem Memory.read_write_ne (m : Memory) {a b : Nat} (v : Byte) (h : b ≠ a) :
    Memory.read (Memory.write m a v) b = Memory.read m b := by
  by_cases ha : a < Config.memSize
  · rw [Memory.read_write m a v b ha, if_neg h]
  · unfold Memory.write
    rw [if_pos (by omega)]

theorem Memory.read_writeBytes_outside (bs : List Byte) (m : Memory) (a b : Nat)
    (h : b < a ∨ a + bs.length ≤ b) :
    Memory.read (Memory.writeBytes m a bs) b = Memory.read m b := by
  induction bs generalizing m a with
  | nil => rfl
  | cons c bs ih =>
    simp only [List.length_cons] at h
    rw [Memory.writeBytes, ih _ _ (by omega), Memory.read_write_ne _ _ (by omega)]

theorem Memory.read_writeBytes (bs : List Byte) (m : Memory) (a k : Nat) (hk : k < bs.length)
    (ha : a + bs.length ≤ Config.memSize) :
    Memory.read (Memory.writeBytes m a bs) (a + k) = bs[k] := by
  induction bs generalizing m a k with
  | nil => exact absurd hk (Nat.not_lt_zero _)
  | cons c bs ih =>
    simp only [List.length_cons] at hk ha
    rw [Memory.writeBytes]
    cases k with
    | zero =>
      rw [Memory.read_writeBytes_outside _ _ _ _ (by omega), Memory.read_write _ _ _ _ (by omega),
        if_pos (by omega)]
      rfl
    | succ k =>
      rw [show a + (k + 1) = a + 1 + k by omega, ih _ _ _ (by omega) (by omega)]
      rfl

/-! ## The canonical form -/

theorem Memory.wfFrom_cons (lo a : Nat) (v : Byte) (m : Memory) :
    Memory.wfFrom lo ((a, v) :: m) = true ↔
      lo ≤ a ∧ a < Config.memSize ∧ v ≠ Memory.resetByte a ∧ Memory.wfFrom (a + 1) m = true := by
  simp [Memory.wfFrom, and_assoc]

theorem Memory.wfFrom_weaken {lo lo' : Nat} (m : Memory) (h : lo' ≤ lo)
    (hm : Memory.wfFrom lo m = true) : Memory.wfFrom lo' m = true := by
  cases m with
  | nil => rfl
  | cons c m =>
    obtain ⟨a, v⟩ := c
    rw [Memory.wfFrom_cons] at hm ⊢
    exact ⟨by omega, hm.2⟩

theorem Memory.wfFrom_place (m : Memory) (lo a : Nat) (v : Byte) (hlo : lo ≤ a)
    (ha : a < Config.memSize) (hv : v ≠ Memory.resetByte a) (hm : Memory.wfFrom lo m = true) :
    Memory.wfFrom lo (Memory.place m a v) = true := by
  induction m generalizing lo with
  | nil => exact (Memory.wfFrom_cons _ _ _ _).2 ⟨hlo, ha, hv, rfl⟩
  | cons c m ih =>
    obtain ⟨b, w⟩ := c
    have hc := (Memory.wfFrom_cons _ _ _ _).1 hm
    simp only [Memory.place]
    split
    · exact (Memory.wfFrom_cons _ _ _ _).2
        ⟨hlo, ha, hv, (Memory.wfFrom_cons _ _ _ _).2 ⟨by omega, hc.2⟩⟩
    · split
      · subst_vars
        exact (Memory.wfFrom_cons _ _ _ _).2 ⟨hlo, ha, hv, hc.2.2.2⟩
      · exact (Memory.wfFrom_cons _ _ _ _).2
          ⟨hc.1, hc.2.1, hc.2.2.1, ih (b + 1) (by omega) hc.2.2.2⟩

theorem Memory.wfFrom_unplace (m : Memory) (lo a : Nat) (hm : Memory.wfFrom lo m = true) :
    Memory.wfFrom lo (Memory.unplace m a) = true := by
  unfold Memory.unplace
  induction m generalizing lo with
  | nil => rfl
  | cons c m ih =>
    obtain ⟨b, w⟩ := c
    have hc := (Memory.wfFrom_cons _ _ _ _).1 hm
    have ht := ih (b + 1) hc.2.2.2
    by_cases hb : b = a
    · rw [List.filter_cons_of_neg (by simp [hb])]
      exact Memory.wfFrom_weaken _ (by omega) ht
    · rw [List.filter_cons_of_pos (by simp [hb])]
      exact (Memory.wfFrom_cons _ _ _ _).2 ⟨hc.1, hc.2.1, hc.2.2.1, ht⟩

theorem Memory.wf_write (m : Memory) (a : Nat) (v : Byte) (hm : Memory.wf m = true) :
    Memory.wf (Memory.write m a v) = true := by
  unfold Memory.write
  split
  · exact hm
  · split
    · exact Memory.wfFrom_unplace _ _ _ hm
    · exact Memory.wfFrom_place _ _ _ _ (Nat.zero_le a) (by omega) (by assumption) hm

theorem Memory.wf_writeBytes (bs : List Byte) (m : Memory) (a : Nat) (hm : Memory.wf m = true) :
    Memory.wf (Memory.writeBytes m a bs) = true := by
  induction bs generalizing m a with
  | nil => exact hm
  | cons b bs ih => exact ih _ _ (Memory.wf_write m a b hm)

theorem reset_mem_wf : Memory.wf State.reset.mem = true := rfl

end Sys2Proof.Machine
end

