-- ==== Sys2Proof/Laws/State.lean ====
section
/-! SUPPORT. One lemma per field per update of State, true by rfl, and the register file read after a write. -/

namespace Sys2Proof.Machine

variable (s : State)

/-! ### writeV -/

@[simp] theorem writeV_v (x : Nibble) (b : Byte) : (s.writeV x b).v = s.v.set x.toNat b x.isLt := rfl
@[simp] theorem writeV_i (x : Nibble) (b : Byte) : (s.writeV x b).i = s.i := rfl
@[simp] theorem writeV_pc (x : Nibble) (b : Byte) : (s.writeV x b).pc = s.pc := rfl
@[simp] theorem writeV_sp (x : Nibble) (b : Byte) : (s.writeV x b).sp = s.sp := rfl
@[simp] theorem writeV_stack (x : Nibble) (b : Byte) : (s.writeV x b).stack = s.stack := rfl
@[simp] theorem writeV_dt (x : Nibble) (b : Byte) : (s.writeV x b).dt = s.dt := rfl
@[simp] theorem writeV_st (x : Nibble) (b : Byte) : (s.writeV x b).st = s.st := rfl
@[simp] theorem writeV_mem (x : Nibble) (b : Byte) : (s.writeV x b).mem = s.mem := rfl
@[simp] theorem writeV_fb (x : Nibble) (b : Byte) : (s.writeV x b).fb = s.fb := rfl
@[simp] theorem writeV_keys (x : Nibble) (b : Byte) : (s.writeV x b).keys = s.keys := rfl
@[simp] theorem writeV_fault (x : Nibble) (b : Byte) : (s.writeV x b).fault = s.fault := rfl
@[simp] theorem writeV_faultPc (x : Nibble) (b : Byte) : (s.writeV x b).faultPc = s.faultPc := rfl
@[simp] theorem writeV_faultInfo (x : Nibble) (b : Byte) : (s.writeV x b).faultInfo = s.faultInfo := rfl
@[simp] theorem writeV_running (x : Nibble) (b : Byte) : (s.writeV x b).running = s.running := rfl
@[simp] theorem writeV_romLoaded (x : Nibble) (b : Byte) : (s.writeV x b).romLoaded = s.romLoaded := rfl
@[simp] theorem writeV_draws (x : Nibble) (b : Byte) : (s.writeV x b).draws = s.draws := rfl

/-! ### setIndex -/

@[simp] theorem setIndex_v (w : Word16) : (s.setIndex w).v = s.v := rfl
@[simp] theorem setIndex_i (w : Word16) : (s.setIndex w).i = w := rfl
@[simp] theorem setIndex_pc (w : Word16) : (s.setIndex w).pc = s.pc := rfl
@[simp] theorem setIndex_sp (w : Word16) : (s.setIndex w).sp = s.sp := rfl
@[simp] theorem setIndex_stack (w : Word16) : (s.setIndex w).stack = s.stack := rfl
@[simp] theorem setIndex_dt (w : Word16) : (s.setIndex w).dt = s.dt := rfl
@[simp] theorem setIndex_st (w : Word16) : (s.setIndex w).st = s.st := rfl
@[simp] theorem setIndex_mem (w : Word16) : (s.setIndex w).mem = s.mem := rfl
@[simp] theorem setIndex_fb (w : Word16) : (s.setIndex w).fb = s.fb := rfl
@[simp] theorem setIndex_keys (w : Word16) : (s.setIndex w).keys = s.keys := rfl
@[simp] theorem setIndex_fault (w : Word16) : (s.setIndex w).fault = s.fault := rfl
@[simp] theorem setIndex_faultPc (w : Word16) : (s.setIndex w).faultPc = s.faultPc := rfl
@[simp] theorem setIndex_faultInfo (w : Word16) : (s.setIndex w).faultInfo = s.faultInfo := rfl
@[simp] theorem setIndex_running (w : Word16) : (s.setIndex w).running = s.running := rfl
@[simp] theorem setIndex_romLoaded (w : Word16) : (s.setIndex w).romLoaded = s.romLoaded := rfl
@[simp] theorem setIndex_draws (w : Word16) : (s.setIndex w).draws = s.draws := rfl

/-! ### setPc -/

@[simp] theorem setPc_v (w : Word16) : (s.setPc w).v = s.v := rfl
@[simp] theorem setPc_i (w : Word16) : (s.setPc w).i = s.i := rfl
@[simp] theorem setPc_pc (w : Word16) : (s.setPc w).pc = w := rfl
@[simp] theorem setPc_sp (w : Word16) : (s.setPc w).sp = s.sp := rfl
@[simp] theorem setPc_stack (w : Word16) : (s.setPc w).stack = s.stack := rfl
@[simp] theorem setPc_dt (w : Word16) : (s.setPc w).dt = s.dt := rfl
@[simp] theorem setPc_st (w : Word16) : (s.setPc w).st = s.st := rfl
@[simp] theorem setPc_mem (w : Word16) : (s.setPc w).mem = s.mem := rfl
@[simp] theorem setPc_fb (w : Word16) : (s.setPc w).fb = s.fb := rfl
@[simp] theorem setPc_keys (w : Word16) : (s.setPc w).keys = s.keys := rfl
@[simp] theorem setPc_fault (w : Word16) : (s.setPc w).fault = s.fault := rfl
@[simp] theorem setPc_faultPc (w : Word16) : (s.setPc w).faultPc = s.faultPc := rfl
@[simp] theorem setPc_faultInfo (w : Word16) : (s.setPc w).faultInfo = s.faultInfo := rfl
@[simp] theorem setPc_running (w : Word16) : (s.setPc w).running = s.running := rfl
@[simp] theorem setPc_romLoaded (w : Word16) : (s.setPc w).romLoaded = s.romLoaded := rfl
@[simp] theorem setPc_draws (w : Word16) : (s.setPc w).draws = s.draws := rfl

/-! ### setDelay -/

@[simp] theorem setDelay_v (b : Byte) : (s.setDelay b).v = s.v := rfl
@[simp] theorem setDelay_i (b : Byte) : (s.setDelay b).i = s.i := rfl
@[simp] theorem setDelay_pc (b : Byte) : (s.setDelay b).pc = s.pc := rfl
@[simp] theorem setDelay_sp (b : Byte) : (s.setDelay b).sp = s.sp := rfl
@[simp] theorem setDelay_stack (b : Byte) : (s.setDelay b).stack = s.stack := rfl
@[simp] theorem setDelay_dt (b : Byte) : (s.setDelay b).dt = b := rfl
@[simp] theorem setDelay_st (b : Byte) : (s.setDelay b).st = s.st := rfl
@[simp] theorem setDelay_mem (b : Byte) : (s.setDelay b).mem = s.mem := rfl
@[simp] theorem setDelay_fb (b : Byte) : (s.setDelay b).fb = s.fb := rfl
@[simp] theorem setDelay_keys (b : Byte) : (s.setDelay b).keys = s.keys := rfl
@[simp] theorem setDelay_fault (b : Byte) : (s.setDelay b).fault = s.fault := rfl
@[simp] theorem setDelay_faultPc (b : Byte) : (s.setDelay b).faultPc = s.faultPc := rfl
@[simp] theorem setDelay_faultInfo (b : Byte) : (s.setDelay b).faultInfo = s.faultInfo := rfl
@[simp] theorem setDelay_running (b : Byte) : (s.setDelay b).running = s.running := rfl
@[simp] theorem setDelay_romLoaded (b : Byte) : (s.setDelay b).romLoaded = s.romLoaded := rfl
@[simp] theorem setDelay_draws (b : Byte) : (s.setDelay b).draws = s.draws := rfl

/-! ### setSound -/

@[simp] theorem setSound_v (b : Byte) : (s.setSound b).v = s.v := rfl
@[simp] theorem setSound_i (b : Byte) : (s.setSound b).i = s.i := rfl
@[simp] theorem setSound_pc (b : Byte) : (s.setSound b).pc = s.pc := rfl
@[simp] theorem setSound_sp (b : Byte) : (s.setSound b).sp = s.sp := rfl
@[simp] theorem setSound_stack (b : Byte) : (s.setSound b).stack = s.stack := rfl
@[simp] theorem setSound_dt (b : Byte) : (s.setSound b).dt = s.dt := rfl
@[simp] theorem setSound_st (b : Byte) : (s.setSound b).st = b := rfl
@[simp] theorem setSound_mem (b : Byte) : (s.setSound b).mem = s.mem := rfl
@[simp] theorem setSound_fb (b : Byte) : (s.setSound b).fb = s.fb := rfl
@[simp] theorem setSound_keys (b : Byte) : (s.setSound b).keys = s.keys := rfl
@[simp] theorem setSound_fault (b : Byte) : (s.setSound b).fault = s.fault := rfl
@[simp] theorem setSound_faultPc (b : Byte) : (s.setSound b).faultPc = s.faultPc := rfl
@[simp] theorem setSound_faultInfo (b : Byte) : (s.setSound b).faultInfo = s.faultInfo := rfl
@[simp] theorem setSound_running (b : Byte) : (s.setSound b).running = s.running := rfl
@[simp] theorem setSound_romLoaded (b : Byte) : (s.setSound b).romLoaded = s.romLoaded := rfl
@[simp] theorem setSound_draws (b : Byte) : (s.setSound b).draws = s.draws := rfl

/-! ### setMem -/

@[simp] theorem setMem_v (m : Memory) : (s.setMem m).v = s.v := rfl
@[simp] theorem setMem_i (m : Memory) : (s.setMem m).i = s.i := rfl
@[simp] theorem setMem_pc (m : Memory) : (s.setMem m).pc = s.pc := rfl
@[simp] theorem setMem_sp (m : Memory) : (s.setMem m).sp = s.sp := rfl
@[simp] theorem setMem_stack (m : Memory) : (s.setMem m).stack = s.stack := rfl
@[simp] theorem setMem_dt (m : Memory) : (s.setMem m).dt = s.dt := rfl
@[simp] theorem setMem_st (m : Memory) : (s.setMem m).st = s.st := rfl
@[simp] theorem setMem_mem (m : Memory) : (s.setMem m).mem = m := rfl
@[simp] theorem setMem_fb (m : Memory) : (s.setMem m).fb = s.fb := rfl
@[simp] theorem setMem_keys (m : Memory) : (s.setMem m).keys = s.keys := rfl
@[simp] theorem setMem_fault (m : Memory) : (s.setMem m).fault = s.fault := rfl
@[simp] theorem setMem_faultPc (m : Memory) : (s.setMem m).faultPc = s.faultPc := rfl
@[simp] theorem setMem_faultInfo (m : Memory) : (s.setMem m).faultInfo = s.faultInfo := rfl
@[simp] theorem setMem_running (m : Memory) : (s.setMem m).running = s.running := rfl
@[simp] theorem setMem_romLoaded (m : Memory) : (s.setMem m).romLoaded = s.romLoaded := rfl
@[simp] theorem setMem_draws (m : Memory) : (s.setMem m).draws = s.draws := rfl

/-! ### setScreen -/

@[simp] theorem setScreen_v (f : Screen) : (s.setScreen f).v = s.v := rfl
@[simp] theorem setScreen_i (f : Screen) : (s.setScreen f).i = s.i := rfl
@[simp] theorem setScreen_pc (f : Screen) : (s.setScreen f).pc = s.pc := rfl
@[simp] theorem setScreen_sp (f : Screen) : (s.setScreen f).sp = s.sp := rfl
@[simp] theorem setScreen_stack (f : Screen) : (s.setScreen f).stack = s.stack := rfl
@[simp] theorem setScreen_dt (f : Screen) : (s.setScreen f).dt = s.dt := rfl
@[simp] theorem setScreen_st (f : Screen) : (s.setScreen f).st = s.st := rfl
@[simp] theorem setScreen_mem (f : Screen) : (s.setScreen f).mem = s.mem := rfl
@[simp] theorem setScreen_fb (f : Screen) : (s.setScreen f).fb = f := rfl
@[simp] theorem setScreen_keys (f : Screen) : (s.setScreen f).keys = s.keys := rfl
@[simp] theorem setScreen_fault (f : Screen) : (s.setScreen f).fault = s.fault := rfl
@[simp] theorem setScreen_faultPc (f : Screen) : (s.setScreen f).faultPc = s.faultPc := rfl
@[simp] theorem setScreen_faultInfo (f : Screen) : (s.setScreen f).faultInfo = s.faultInfo := rfl
@[simp] theorem setScreen_running (f : Screen) : (s.setScreen f).running = s.running := rfl
@[simp] theorem setScreen_romLoaded (f : Screen) : (s.setScreen f).romLoaded = s.romLoaded := rfl
@[simp] theorem setScreen_draws (f : Screen) : (s.setScreen f).draws = s.draws := rfl

/-! ### consumeDraw -/

@[simp] theorem consumeDraw_v : (s.consumeDraw).v = s.v := rfl
@[simp] theorem consumeDraw_i : (s.consumeDraw).i = s.i := rfl
@[simp] theorem consumeDraw_pc : (s.consumeDraw).pc = s.pc := rfl
@[simp] theorem consumeDraw_sp : (s.consumeDraw).sp = s.sp := rfl
@[simp] theorem consumeDraw_stack : (s.consumeDraw).stack = s.stack := rfl
@[simp] theorem consumeDraw_dt : (s.consumeDraw).dt = s.dt := rfl
@[simp] theorem consumeDraw_st : (s.consumeDraw).st = s.st := rfl
@[simp] theorem consumeDraw_mem : (s.consumeDraw).mem = s.mem := rfl
@[simp] theorem consumeDraw_fb : (s.consumeDraw).fb = s.fb := rfl
@[simp] theorem consumeDraw_keys : (s.consumeDraw).keys = s.keys := rfl
@[simp] theorem consumeDraw_fault : (s.consumeDraw).fault = s.fault := rfl
@[simp] theorem consumeDraw_faultPc : (s.consumeDraw).faultPc = s.faultPc := rfl
@[simp] theorem consumeDraw_faultInfo : (s.consumeDraw).faultInfo = s.faultInfo := rfl
@[simp] theorem consumeDraw_running : (s.consumeDraw).running = s.running := rfl
@[simp] theorem consumeDraw_romLoaded : (s.consumeDraw).romLoaded = s.romLoaded := rfl
@[simp] theorem consumeDraw_draws : (s.consumeDraw).draws = s.draws + 1 := rfl

/-! ### advancePc -/

@[simp] theorem advancePc_v : (s.advancePc).v = s.v := rfl
@[simp] theorem advancePc_i : (s.advancePc).i = s.i := rfl
@[simp] theorem advancePc_pc : (s.advancePc).pc = s.pc + 2 := rfl
@[simp] theorem advancePc_sp : (s.advancePc).sp = s.sp := rfl
@[simp] theorem advancePc_stack : (s.advancePc).stack = s.stack := rfl
@[simp] theorem advancePc_dt : (s.advancePc).dt = s.dt := rfl
@[simp] theorem advancePc_st : (s.advancePc).st = s.st := rfl
@[simp] theorem advancePc_mem : (s.advancePc).mem = s.mem := rfl
@[simp] theorem advancePc_fb : (s.advancePc).fb = s.fb := rfl
@[simp] theorem advancePc_keys : (s.advancePc).keys = s.keys := rfl
@[simp] theorem advancePc_fault : (s.advancePc).fault = s.fault := rfl
@[simp] theorem advancePc_faultPc : (s.advancePc).faultPc = s.faultPc := rfl
@[simp] theorem advancePc_faultInfo : (s.advancePc).faultInfo = s.faultInfo := rfl
@[simp] theorem advancePc_running : (s.advancePc).running = s.running := rfl
@[simp] theorem advancePc_romLoaded : (s.advancePc).romLoaded = s.romLoaded := rfl
@[simp] theorem advancePc_draws : (s.advancePc).draws = s.draws := rfl

/-! ### beginCycle -/

@[simp] theorem beginCycle_v : (s.beginCycle).v = s.v := rfl
@[simp] theorem beginCycle_i : (s.beginCycle).i = s.i := rfl
@[simp] theorem beginCycle_pc : (s.beginCycle).pc = s.pc + 2 := rfl
@[simp] theorem beginCycle_sp : (s.beginCycle).sp = s.sp := rfl
@[simp] theorem beginCycle_stack : (s.beginCycle).stack = s.stack := rfl
@[simp] theorem beginCycle_dt : (s.beginCycle).dt = s.dt := rfl
@[simp] theorem beginCycle_st : (s.beginCycle).st = s.st := rfl
@[simp] theorem beginCycle_mem : (s.beginCycle).mem = s.mem := rfl
@[simp] theorem beginCycle_fb : (s.beginCycle).fb = s.fb := rfl
@[simp] theorem beginCycle_keys : (s.beginCycle).keys = s.keys := rfl
@[simp] theorem beginCycle_fault : (s.beginCycle).fault = s.fault := rfl
@[simp] theorem beginCycle_faultPc : (s.beginCycle).faultPc = s.faultPc := rfl
@[simp] theorem beginCycle_faultInfo : (s.beginCycle).faultInfo = s.faultInfo := rfl
@[simp] theorem beginCycle_running : (s.beginCycle).running = true := rfl
@[simp] theorem beginCycle_romLoaded : (s.beginCycle).romLoaded = s.romLoaded := rfl
@[simp] theorem beginCycle_draws : (s.beginCycle).draws = s.draws := rfl

/-! ### decayTimers -/

@[simp] theorem decayTimers_v : (s.decayTimers).v = s.v := rfl
@[simp] theorem decayTimers_i : (s.decayTimers).i = s.i := rfl
@[simp] theorem decayTimers_pc : (s.decayTimers).pc = s.pc := rfl
@[simp] theorem decayTimers_sp : (s.decayTimers).sp = s.sp := rfl
@[simp] theorem decayTimers_stack : (s.decayTimers).stack = s.stack := rfl
@[simp] theorem decayTimers_dt : (s.decayTimers).dt = decayed s.dt := rfl
@[simp] theorem decayTimers_st : (s.decayTimers).st = decayed s.st := rfl
@[simp] theorem decayTimers_mem : (s.decayTimers).mem = s.mem := rfl
@[simp] theorem decayTimers_fb : (s.decayTimers).fb = s.fb := rfl
@[simp] theorem decayTimers_keys : (s.decayTimers).keys = s.keys := rfl
@[simp] theorem decayTimers_fault : (s.decayTimers).fault = s.fault := rfl
@[simp] theorem decayTimers_faultPc : (s.decayTimers).faultPc = s.faultPc := rfl
@[simp] theorem decayTimers_faultInfo : (s.decayTimers).faultInfo = s.faultInfo := rfl
@[simp] theorem decayTimers_running : (s.decayTimers).running = s.running := rfl
@[simp] theorem decayTimers_romLoaded : (s.decayTimers).romLoaded = s.romLoaded := rfl
@[simp] theorem decayTimers_draws : (s.decayTimers).draws = s.draws := rfl

/-! ### latch -/

@[simp] theorem latch_v (c : FaultCode) (p info : Word16) : (s.latch c p info).v = s.v := rfl
@[simp] theorem latch_i (c : FaultCode) (p info : Word16) : (s.latch c p info).i = s.i := rfl
@[simp] theorem latch_pc (c : FaultCode) (p info : Word16) : (s.latch c p info).pc = p := rfl
@[simp] theorem latch_sp (c : FaultCode) (p info : Word16) : (s.latch c p info).sp = s.sp := rfl
@[simp] theorem latch_stack (c : FaultCode) (p info : Word16) : (s.latch c p info).stack = s.stack := rfl
@[simp] theorem latch_dt (c : FaultCode) (p info : Word16) : (s.latch c p info).dt = s.dt := rfl
@[simp] theorem latch_st (c : FaultCode) (p info : Word16) : (s.latch c p info).st = s.st := rfl
@[simp] theorem latch_mem (c : FaultCode) (p info : Word16) : (s.latch c p info).mem = s.mem := rfl
@[simp] theorem latch_fb (c : FaultCode) (p info : Word16) : (s.latch c p info).fb = s.fb := rfl
@[simp] theorem latch_keys (c : FaultCode) (p info : Word16) : (s.latch c p info).keys = s.keys := rfl
@[simp] theorem latch_fault (c : FaultCode) (p info : Word16) : (s.latch c p info).fault = c := rfl
@[simp] theorem latch_faultPc (c : FaultCode) (p info : Word16) : (s.latch c p info).faultPc = p := rfl
@[simp] theorem latch_faultInfo (c : FaultCode) (p info : Word16) : (s.latch c p info).faultInfo = info := rfl
@[simp] theorem latch_running (c : FaultCode) (p info : Word16) : (s.latch c p info).running = true := rfl
@[simp] theorem latch_romLoaded (c : FaultCode) (p info : Word16) : (s.latch c p info).romLoaded = s.romLoaded := rfl
@[simp] theorem latch_draws (c : FaultCode) (p info : Word16) : (s.latch c p info).draws = s.draws := rfl

/-! ### Registers, keys and bytes read after an update -/

theorem readV_writeV (x y : Nibble) (b : Byte) :
    (s.writeV x b).readV y = if y = x then b else s.readV y := by
  unfold State.readV State.writeV
  simp only [Vector.getElem_set, ← BitVec.toNat_inj, eq_comm]

@[simp] theorem readV_writeV_self (x : Nibble) (b : Byte) : (s.writeV x b).readV x = b := by
  simp [readV_writeV]

theorem readV_writeV_ne {x y : Nibble} (h : y ≠ x) (b : Byte) :
    (s.writeV x b).readV y = s.readV y := by
  simp [readV_writeV, h]

@[simp] theorem readV_setIndex (w : Word16) (y : Nibble) : (s.setIndex w).readV y = s.readV y := rfl
@[simp] theorem readV_setPc (w : Word16) (y : Nibble) : (s.setPc w).readV y = s.readV y := rfl
@[simp] theorem readV_setDelay (b : Byte) (y : Nibble) : (s.setDelay b).readV y = s.readV y := rfl
@[simp] theorem readV_setSound (b : Byte) (y : Nibble) : (s.setSound b).readV y = s.readV y := rfl
@[simp] theorem readV_setMem (m : Memory) (y : Nibble) : (s.setMem m).readV y = s.readV y := rfl
@[simp] theorem readV_setScreen (f : Screen) (y : Nibble) : (s.setScreen f).readV y = s.readV y := rfl
@[simp] theorem readV_consumeDraw (y : Nibble) : (s.consumeDraw).readV y = s.readV y := rfl
@[simp] theorem readV_advancePc (y : Nibble) : (s.advancePc).readV y = s.readV y := rfl
@[simp] theorem readV_beginCycle (y : Nibble) : (s.beginCycle).readV y = s.readV y := rfl
@[simp] theorem readV_decayTimers (y : Nibble) : (s.decayTimers).readV y = s.readV y := rfl
@[simp] theorem readV_latch (c : FaultCode) (p info : Word16) (y : Nibble) : (s.latch c p info).readV y = s.readV y := rfl

@[simp] theorem readKey_writeV (x : Nibble) (b : Byte) (k : Nibble) : (s.writeV x b).readKey k = s.readKey k := rfl
@[simp] theorem readKey_setIndex (w : Word16) (k : Nibble) : (s.setIndex w).readKey k = s.readKey k := rfl
@[simp] theorem readKey_setPc (w : Word16) (k : Nibble) : (s.setPc w).readKey k = s.readKey k := rfl
@[simp] theorem readKey_setDelay (b : Byte) (k : Nibble) : (s.setDelay b).readKey k = s.readKey k := rfl
@[simp] theorem readKey_setSound (b : Byte) (k : Nibble) : (s.setSound b).readKey k = s.readKey k := rfl
@[simp] theorem readKey_setMem (m : Memory) (k : Nibble) : (s.setMem m).readKey k = s.readKey k := rfl
@[simp] theorem readKey_setScreen (f : Screen) (k : Nibble) : (s.setScreen f).readKey k = s.readKey k := rfl
@[simp] theorem readKey_consumeDraw (k : Nibble) : (s.consumeDraw).readKey k = s.readKey k := rfl
@[simp] theorem readKey_advancePc (k : Nibble) : (s.advancePc).readKey k = s.readKey k := rfl
@[simp] theorem readKey_beginCycle (k : Nibble) : (s.beginCycle).readKey k = s.readKey k := rfl
@[simp] theorem readKey_decayTimers (k : Nibble) : (s.decayTimers).readKey k = s.readKey k := rfl
@[simp] theorem readKey_latch (c : FaultCode) (p info : Word16) (k : Nibble) : (s.latch c p info).readKey k = s.readKey k := rfl

@[simp] theorem readByte_writeV (x : Nibble) (b : Byte) (a : Nat) : (s.writeV x b).readByte a = s.readByte a := rfl
@[simp] theorem readByte_setIndex (w : Word16) (a : Nat) : (s.setIndex w).readByte a = s.readByte a := rfl
@[simp] theorem readByte_setPc (w : Word16) (a : Nat) : (s.setPc w).readByte a = s.readByte a := rfl
@[simp] theorem readByte_setDelay (b : Byte) (a : Nat) : (s.setDelay b).readByte a = s.readByte a := rfl
@[simp] theorem readByte_setSound (b : Byte) (a : Nat) : (s.setSound b).readByte a = s.readByte a := rfl
@[simp] theorem readByte_setScreen (f : Screen) (a : Nat) : (s.setScreen f).readByte a = s.readByte a := rfl
@[simp] theorem readByte_consumeDraw (a : Nat) : (s.consumeDraw).readByte a = s.readByte a := rfl
@[simp] theorem readByte_advancePc (a : Nat) : (s.advancePc).readByte a = s.readByte a := rfl
@[simp] theorem readByte_beginCycle (a : Nat) : (s.beginCycle).readByte a = s.readByte a := rfl
@[simp] theorem readByte_decayTimers (a : Nat) : (s.decayTimers).readByte a = s.readByte a := rfl
@[simp] theorem readByte_latch (c : FaultCode) (p info : Word16) (a : Nat) : (s.latch c p info).readByte a = s.readByte a := rfl

@[simp] theorem readByte_setMem (m : Memory) (a : Nat) : (s.setMem m).readByte a = Memory.read m a := rfl

end Sys2Proof.Machine
end

