-- ==== Sys2Proof/Laws/Ops.lean ====
section
/-! SUPPORT. What each shared operation can do, once: the range guard, fault entry, stack, skip, flag writes, register lists,
screen cells and the sprite blit. -/

namespace Sys2Proof.Machine

/-! ## Guard and fault entry (R54, R244) -/

theorem outOfRange_iff (s : State) (len : Nat) :
    s.outOfRange len = true ↔ 0 < len ∧ 0xFFF < s.i.toNat + (len - 1) := by
  simp [State.outOfRange]

theorem guarded_inRange {s : State} {len : Nat} (s' : State)
    (h : ¬ (0 < len ∧ 0xFFF < s.i.toNat + (len - 1))) : s.guarded len s' = .next s' := by
  unfold State.guarded
  rw [if_neg (by rwa [outOfRange_iff])]

theorem guarded_outOfRange {s : State} {len : Nat} (s' : State)
    (h : 0 < len ∧ 0xFFF < s.i.toNat + (len - 1)) :
    s.guarded len s' =
      .next (s.latch .addressOutOfRange (s.pc - 2) s.offendingAddress) := by
  unfold State.guarded
  rw [if_pos (by rwa [outOfRange_iff])]
  rfl

theorem guarded_cases {s s' t : State} {len : Nat} (h : s.guarded len s' = .next t) :
    (s.outOfRange len = true ∧ t = s.latch .addressOutOfRange (s.pc - 2) s.offendingAddress) ∨
      (s.outOfRange len = false ∧ t = s') := by
  unfold State.guarded at h
  split at h
  · exact .inl ⟨by assumption, by cases h; rfl⟩
  · exact .inr ⟨by simp_all, by cases h; rfl⟩

theorem offendingAddress_eq (s : State) :
    s.offendingAddress = BitVec.ofNat 16 (max s.i.toNat 0x1000) := by
  unfold State.offendingAddress
  split
  · rw [Nat.max_eq_right (by omega)]
    rfl
  · rw [Nat.max_eq_left (by omega), BitVec.ofNat_toNat, BitVec.setWidth_eq]

/-- PC of the executing instruction, from the advanced PC (R112). -/
theorem sub_two_add_two (p : Word16) : p + 2 - 2 = p := by bv_omega

/-! ## Call stack (R25) -/

theorem push_full {s : State} (w : Word16) (h : s.sp.val = 16) : s.push w = none := by
  unfold State.push
  rw [dif_neg (by omega)]

theorem push_room {s : State} (w : Word16) (h : s.sp.val < 16) :
    s.push w = some { s with stack := s.stack.set s.sp.val w h, sp := ⟨s.sp.val + 1, by omega⟩ } := by
  unfold State.push
  rw [dif_pos h]

theorem pop_empty {s : State} (h : s.sp.val = 0) : s.pop = none := by
  unfold State.pop
  rw [dif_neg (by omega)]

theorem pop_some {s : State} (h : 0 < s.sp.val) :
    s.pop = some (s.stack[s.sp.val - 1]'(by omega), { s with sp := ⟨s.sp.val - 1, by omega⟩ }) := by
  unfold State.pop
  rw [dif_pos h]

/-! ## Skip (R134) -/

theorem skipIf_eq (s : State) (c : Bool) :
    s.skipIf c = s.setPc (if c then s.pc + 2 else s.pc) := by
  cases c <;> rfl

/-! ## Flags (R150) -/

theorem flagByte_toNat (c : Bool) : (flagByte c).toNat = if c then 1 else 0 := by
  cases c <;> rfl

theorem readV_setFlag (s : State) (c : Bool) (r : Nibble) :
    (s.setFlag c).readV r = if r = 15 then flagByte c else s.readV r :=
  readV_writeV s vf r (flagByte c)

theorem readV_writeWithFlag (s : State) (x : Nibble) (b : Byte) (c : Bool) (r : Nibble) :
    (s.writeWithFlag x b c).readV r =
      if r = 15 then flagByte c else if r = x then b else s.readV r := by
  rw [State.writeWithFlag, readV_setFlag, readV_writeV]

/-- A flag write touches the register file only. -/
theorem setFlag_eq (s : State) (c : Bool) : s.setFlag c = { s with v := (s.setFlag c).v } := rfl

theorem writeWithFlag_eq (s : State) (x : Nibble) (b : Byte) (c : Bool) :
    s.writeWithFlag x b c = { s with v := (s.writeWithFlag x b c).v } := rfl

/-! ## Register lists (R184, R185) -/

theorem mem_registersUpTo (x k : Nibble) : k ∈ registersUpTo x ↔ k.toNat ≤ x.toNat := by
  simp only [registersUpTo, List.mem_map, List.mem_range]
  constructor
  · rintro ⟨n, hn, rfl⟩
    rw [BitVec.toNat_ofNat, Nat.mod_eq_of_lt (by omega)]
    omega
  · intro h
    exact ⟨k.toNat, by omega, by rw [BitVec.ofNat_toNat, BitVec.setWidth_eq]⟩

/-- Loading a list of registers, each from the byte `g` gives it. -/
theorem readV_foldl_writeV (g : Nibble → Byte) (l : List Nibble) (s : State) (r : Nibble) :
    (l.foldl (fun t k => t.writeV k (g k)) s).readV r = if r ∈ l then g r else s.readV r := by
  induction l generalizing s with
  | nil => simp
  | cons k l ih =>
    rw [List.foldl_cons, ih, readV_writeV]
    by_cases hl : r ∈ l
    · simp [hl]
    · by_cases hk : r = k <;> simp [hl, hk]

theorem foldl_writeV_eq (g : Nibble → Byte) (l : List Nibble) (s : State) :
    ∃ v, l.foldl (fun t k => t.writeV k (g k)) s = { s with v := v } := by
  induction l generalizing s with
  | nil => exact ⟨s.v, rfl⟩
  | cons k l ih =>
    obtain ⟨v, hv⟩ := ih (s.writeV k (g k))
    exact ⟨v, by rw [List.foldl_cons, hv]; rfl⟩

theorem readV_loadRegisters (s : State) (x r : Nibble) :
    (s.loadRegisters x).readV r =
      if r.toNat ≤ x.toNat then s.readByte (s.i.toNat + r.toNat) else s.readV r := by
  unfold State.loadRegisters
  rw [readV_foldl_writeV (fun k => s.readByte (s.dataAddress k.toNat))]
  simp only [mem_registersUpTo]
  rfl

/-- register-load touches the register file only. -/
theorem loadRegisters_eq (s : State) (x : Nibble) : ∃ v, s.loadRegisters x = { s with v := v } :=
  foldl_writeV_eq (fun k => s.readByte (s.dataAddress k.toNat)) _ s

/-! ## Keys (R222) -/

theorem firstKey_none (s : State) : s.firstKey = none ↔ ∀ k, s.readKey k = false := by
  unfold State.firstKey
  rw [List.find?_eq_none]
  constructor
  · intro h k
    have hk : k ∈ keysAscending :=
      List.mem_map.2 ⟨k.toNat, List.mem_range.2 k.isLt, by rw [BitVec.ofNat_toNat, BitVec.setWidth_eq]⟩
    simpa using h k hk
  · intro h k _
    simp [h k]

/-! ## Screen cells (R29) -/

theorem get_put (f : Screen) (k j : Fin 2048) (b : Bool) :
    (f.put k b).get j = if j = k then b else f.get j := by
  unfold Screen.put Screen.get
  rw [Vector.getElem_set]
  by_cases hr : k.val / 64 = j.val / 64
  · rw [if_pos hr, Vector.getElem_set]
    by_cases hc : k.val % 64 = j.val % 64
    · rw [if_pos hc, if_pos (Fin.ext (by omega))]
    · rw [if_neg hc, if_neg (fun h => hc (by rw [h]))]
      simp only [hr]
  · rw [if_neg hr, if_neg (fun h => hr (by rw [h]))]

theorem get_off (k : Fin 2048) : Screen.off.get k = false := by
  simp [Screen.off, Screen.get]

/-- Two screens with the same cells are the same screen. -/
theorem screen_ext {f g : Screen} (h : ∀ k, f.get k = g.get k) : f = g := by
  refine Vector.ext fun r hr => Vector.ext fun c hc => ?_
  have hk := h ⟨r * 64 + c, by omega⟩
  unfold Screen.get at hk
  simpa only [show (r * 64 + c) / 64 = r by omega, show (r * 64 + c) % 64 = c by omega] using hk

/-! ## The blit (R201) -/

theorem get_foldl_xorCell (cells : List (Fin 2048)) (hc : cells.Nodup) (acc : Screen × Bool)
    (k : Fin 2048) :
    (cells.foldl xorCell acc).1.get k = (acc.1.get k ^^ decide (k ∈ cells)) := by
  induction cells generalizing acc with
  | nil => simp
  | cons c cells ih =>
    rw [List.nodup_cons] at hc
    rw [List.foldl_cons, ih hc.2]
    simp only [xorCell, get_put]
    by_cases hk : k = c
    · subst hk
      simp [hc.1]
    · simp [hk]

theorem flag_foldl_xorCell (cells : List (Fin 2048)) (hc : cells.Nodup) (acc : Screen × Bool) :
    (cells.foldl xorCell acc).2 = (acc.2 || cells.any acc.1.get) := by
  induction cells generalizing acc with
  | nil => simp
  | cons c cells ih =>
    rw [List.nodup_cons] at hc
    rw [List.foldl_cons, ih hc.2, List.any_cons]
    have hany : cells.any (xorCell acc c).1.get = cells.any acc.1.get := by
      rw [Bool.eq_iff_iff]
      simp only [List.any_eq_true, xorCell, get_put]
      refine exists_congr fun k => and_congr_right fun hk => ?_
      rw [if_neg (by rintro rfl; exact hc.1 hk)]
    rw [hany]
    simp [xorCell, Bool.or_assoc]

/-- Distinct cells: each is toggled once, and the flag says whether any of them was on. -/
theorem get_blit (f : Screen) {cells : List (Fin 2048)} (hc : cells.Nodup) (k : Fin 2048) :
    (blit f cells).1.get k = (f.get k ^^ decide (k ∈ cells)) :=
  get_foldl_xorCell cells hc (f, false) k

theorem flag_blit (f : Screen) {cells : List (Fin 2048)} (hc : cells.Nodup) :
    (blit f cells).2 = cells.any f.get :=
  (flag_foldl_xorCell cells hc (f, false)).trans (Bool.false_or _)

theorem screenCell_inj {x y x' y' : Nat} :
    screenCell x y = screenCell x' y' ↔ x % 64 = x' % 64 ∧ y % 32 = y' % 32 := by
  simp only [screenCell, Fin.mk.injEq]
  omega

theorem mem_spriteRow (vx vy : Byte) (row : Nat) (b : Byte) (k : Fin 2048) :
    k ∈ spriteRow vx vy row b ↔
      ∃ col, col < 8 ∧ b.getLsbD (7 - col) = true ∧
        screenCell (vx.toNat + col) (vy.toNat + row) = k := by
  simp [spriteRow, spritePixel, and_assoc]

theorem mem_spriteCells (s : State) (vx vy : Byte) (n : Nat) (k : Fin 2048) :
    k ∈ s.spriteCells vx vy n ↔
      ∃ row col, row < n ∧ col < 8 ∧ (s.readByte (s.i.toNat + row)).getLsbD (7 - col) = true ∧
        screenCell (vx.toNat + col) (vy.toNat + row) = k := by
  simp only [State.spriteCells, List.mem_flatMap, List.mem_range, mem_spriteRow, State.dataAddress]
  constructor
  · rintro ⟨row, hr, col, h⟩
    exact ⟨row, col, hr, h⟩
  · rintro ⟨row, col, hr, h⟩
    exact ⟨row, hr, col, h⟩

/-- No cell is visited twice: 8 columns of 64, at most 15 rows of 32 (R201). -/
theorem spriteCells_nodup (s : State) (vx vy : Byte) (n : Nat) (hn : n < 16) :
    (s.spriteCells vx vy n).Nodup := by
  unfold State.spriteCells
  rw [List.nodup_flatMap]
  constructor
  · intro row _
    unfold spriteRow
    refine List.Nodup.map_on ?_ (List.Nodup.filter _ List.nodup_range)
    intro c hc d hd h
    rw [screenCell_inj] at h
    have := List.mem_range.1 (List.mem_of_mem_filter hc)
    have := List.mem_range.1 (List.mem_of_mem_filter hd)
    omega
  · refine List.Pairwise.imp_of_mem ?_ (List.nodup_range (n := n))
    intro a b ha hb hab k hka hkb
    obtain ⟨c, -, -, hc⟩ := (mem_spriteRow ..).1 hka
    obtain ⟨d, -, -, hd⟩ := (mem_spriteRow ..).1 hkb
    have h := screenCell_inj.1 (hc.trans hd.symm)
    have := List.mem_range.1 ha
    have := List.mem_range.1 hb
    omega

end Sys2Proof.Machine
end

