-- ==== Sys2Proof/Laws/PerInstr.lean ====
section
/-! SUPPORT. Statements made for every instruction, one lemma per constructor (LAWS.json). -/

namespace Sys2Proof.Laws.TableRow

/-- The word of an instruction matches its row of the opcode table: under the row's mask it is the row's
pattern (30_encoding.md R81, R83, R90). -/
def Statement (i : Instr) : Prop :=
  encode i &&& selectMask i = selectPattern i

theorem cls (ign : Byte) : Statement (.cls ign) :=
  (mask_fmtZ ..).trans rfl

theorem ret (ign : Byte) : Statement (.ret ign) :=
  (mask_fmtZ ..).trans rfl

theorem jp (nnn : Addr12) : Statement (.jp nnn) :=
  (mask_fmtA ..).trans rfl

theorem call (nnn : Addr12) : Statement (.call nnn) :=
  (mask_fmtA ..).trans rfl

theorem seImm (x : Nibble) (kk : Byte) : Statement (.seImm x kk) :=
  (mask_fmtXI ..).trans rfl

theorem sneImm (x : Nibble) (kk : Byte) : Statement (.sneImm x kk) :=
  (mask_fmtXI ..).trans rfl

theorem seReg (x y : Nibble) (ign : Nibble) : Statement (.seReg x y ign) :=
  (mask_fmtXYN ..).trans rfl

theorem ldImm (x : Nibble) (kk : Byte) : Statement (.ldImm x kk) :=
  (mask_fmtXI ..).trans rfl

theorem addImm (x : Nibble) (kk : Byte) : Statement (.addImm x kk) :=
  (mask_fmtXI ..).trans rfl

theorem ldReg (x y : Nibble) : Statement (.ldReg x y) :=
  (mask_fmtXYN_n ..).trans rfl

theorem orReg (x y : Nibble) : Statement (.orReg x y) :=
  (mask_fmtXYN_n ..).trans rfl

theorem andReg (x y : Nibble) : Statement (.andReg x y) :=
  (mask_fmtXYN_n ..).trans rfl

theorem xorReg (x y : Nibble) : Statement (.xorReg x y) :=
  (mask_fmtXYN_n ..).trans rfl

theorem addReg (x y : Nibble) : Statement (.addReg x y) :=
  (mask_fmtXYN_n ..).trans rfl

theorem subReg (x y : Nibble) : Statement (.subReg x y) :=
  (mask_fmtXYN_n ..).trans rfl

theorem subnReg (x y : Nibble) : Statement (.subnReg x y) :=
  (mask_fmtXYN_n ..).trans rfl

theorem shr (x : Nibble) (ign : Nibble) : Statement (.shr x ign) :=
  (mask_fmtXYN_n ..).trans rfl

theorem shl (x : Nibble) (ign : Nibble) : Statement (.shl x ign) :=
  (mask_fmtXYN_n ..).trans rfl

theorem sneReg (x y : Nibble) (ign : Nibble) : Statement (.sneReg x y ign) :=
  (mask_fmtXYN ..).trans rfl

theorem ldI (nnn : Addr12) : Statement (.ldI nnn) :=
  (mask_fmtA ..).trans rfl

theorem jpV0 (nnn : Addr12) : Statement (.jpV0 nnn) :=
  (mask_fmtA ..).trans rfl

theorem rnd (x : Nibble) (kk : Byte) : Statement (.rnd x kk) :=
  (mask_fmtXI ..).trans rfl

theorem drw (x y n : Nibble) : Statement (.drw x y n) :=
  (mask_fmtXYN ..).trans rfl

theorem skp (x : Nibble) (ign : Nibble) : Statement (.skp x ign) :=
  (mask_fmtXYN_n ..).trans rfl

theorem sknp (x : Nibble) (ign : Nibble) : Statement (.sknp x ign) :=
  (mask_fmtXYN_n ..).trans rfl

theorem ldVxDT (x : Nibble) : Statement (.ldVxDT x) :=
  (mask_fmtXI_kk ..).trans rfl

theorem ldVxK (x : Nibble) : Statement (.ldVxK x) :=
  (mask_fmtXI_kk ..).trans rfl

theorem ldDTVx (x : Nibble) : Statement (.ldDTVx x) :=
  (mask_fmtXI_kk ..).trans rfl

theorem ldSTVx (x : Nibble) : Statement (.ldSTVx x) :=
  (mask_fmtXI_kk ..).trans rfl

theorem addIVx (x : Nibble) : Statement (.addIVx x) :=
  (mask_fmtXI_kk ..).trans rfl

theorem ldFVx (x : Nibble) : Statement (.ldFVx x) :=
  (mask_fmtXI_kk ..).trans rfl

theorem ldBVx (x : Nibble) : Statement (.ldBVx x) :=
  (mask_fmtXI_kk ..).trans rfl

theorem ldMemVx (x : Nibble) : Statement (.ldMemVx x) :=
  (mask_fmtXI_kk ..).trans rfl

theorem ldVxMem (x : Nibble) : Statement (.ldVxMem x) :=
  (mask_fmtXI_kk ..).trans rfl

theorem nop0 (ign : Byte) (sel : Nibble) : Statement (.nop0 ign sel) := by
  refine (mask_fmtZ ..).trans ?_
  simp [selectPattern]

theorem nop8 (ign : Byte) (sel : Nibble) : Statement (.nop8 ign sel) := by
  refine (mask_fmtZ ..).trans ?_
  simp [selectPattern]

theorem nopE (ign : Byte) (sel : Nibble) : Statement (.nopE ign sel) := by
  refine (mask_fmtZ ..).trans ?_
  simp [selectPattern]

theorem nopF (ign : Nibble) (sel : Byte) : Statement (.nopF ign sel) := by
  refine (mask_fmtXI_kk ..).trans ?_
  simp [selectPattern]

end Sys2Proof.Laws.TableRow
end

