-- ==== Sys2Proof/Laws/Step.lean ====
section
/-! SUPPORT. What a step can do (R110, R245), once; and what fetch gives after `placeOpcode`. -/

namespace Sys2Proof.Machine

theorem step_halted {s : State} (h : s.fault ≠ .noFault) : step s = .next s := by
  unfold step cycle
  rw [if_neg h]

theorem step_running {s : State} (h : s.fault = .noFault) :
    step s = finish (exec (decode s.fetch) s.beginCycle) := by
  unfold step cycle
  rw [if_pos h]

/-- A step that answers a next state: the core was halted and nothing changed, or the execute phase answered one
and the cycle ended on it. -/
theorem step_cases {s t : State} (h : step s = .next t) :
    (s.fault ≠ .noFault ∧ t = s) ∨
      (s.fault = .noFault ∧ ∃ u, exec (decode s.fetch) s.beginCycle = .next u ∧ t = u.endCycle) := by
  by_cases hf : s.fault = .noFault
  · rw [step_running hf] at h
    refine .inr ⟨hf, ?_⟩
    cases he : exec (decode s.fetch) s.beginCycle with
    | next u => rw [he] at h; exact ⟨u, rfl, by cases h; rfl⟩
    | fault r => cases r
    | refused r => rw [he] at h; cases h
  · rw [step_halted hf] at h
    exact .inl ⟨hf, by cases h; rfl⟩

theorem endCycle_clear {s : State} (h : s.fault = .noFault) : s.endCycle = s.decayTimers := by
  unfold State.endCycle
  rw [if_pos h]

theorem endCycle_faulted {s : State} (h : s.fault ≠ .noFault) : s.endCycle = s := by
  unfold State.endCycle
  rw [if_neg h]

/-- The cycle's end writes the timers only. -/
theorem endCycle_eq (s : State) :
    s.endCycle = { s with dt := s.endCycle.dt, st := s.endCycle.st } := by
  unfold State.endCycle
  split <;> rfl

theorem decayed_toNat (t : Byte) : (decayed t).toNat = t.toNat - 1 := by
  unfold decayed
  split
  · subst_vars; rfl
  · bv_omega

/-- A placed opcode is the one fetched. -/
theorem fetch_placeOpcode (s : State) (w : Word16) : (s.placeOpcode w).fetch = w := by
  have h1 : s.pc.toNat % Config.memSize < Config.memSize := Nat.mod_lt _ (by decide)
  have h2 : (s.pc.toNat + 1) % Config.memSize < Config.memSize := Nat.mod_lt _ (by decide)
  have hne : s.pc.toNat % Config.memSize ≠ (s.pc.toNat + 1) % Config.memSize := by
    simp only [Config.memSize]; omega
  unfold State.fetch State.placeOpcode
  simp only [readByte_setMem, setMem_pc]
  rw [Memory.read_write _ _ _ _ h2, if_neg hne, Memory.read_write _ _ _ _ h1, if_pos rfl,
    Memory.read_write _ _ _ _ h2, if_pos rfl, wordOfBytes_bytes]

end Sys2Proof.Machine
end

