-- ==== Sys2Proof/Tests/Slice0.lean ====
section
/-! SUPPORT. The model's own tests: the well-formedness smoke, words written bit by bit from the opcode tables
(30_encoding.md R83, R85 to R89), one-step tests whose expected results are the spec's vectors (95_test_vectors.md, the vector's
id in the docstring), and witnesses that the hypotheses of the statements can be met. -/

namespace Sys2Proof.Tests

open Sys2Proof.Machine

/-! ## Well-formedness: each check refuses an ill-formed term (R116) -/

theorem test_wf_refuses_cls_as_nop0 : (Instr.nop0 0x12 0x0).wellFormed = false := by decide
theorem test_wf_refuses_ret_as_nop0 : (Instr.nop0 0x12 0xE).wellFormed = false := by decide
theorem test_wf_refuses_mapped_nop8 :
    mappedSel8.all (fun sel => !(Instr.nop8 0x12 sel).wellFormed) = true := by decide
theorem test_wf_refuses_mapped_nopE :
    mappedSelE.all (fun sel => !(Instr.nopE 0x12 sel).wellFormed) = true := by decide
theorem test_wf_refuses_mapped_nopF :
    mappedSelF.all (fun sel => !(Instr.nopF 0x1 sel).wellFormed) = true := by decide
theorem test_wf_accepts_unmapped :
    (Instr.nop0 0 1).wellFormed && (Instr.nop8 0 0xF).wellFormed && (Instr.nopE 0 0).wellFormed &&
      (Instr.nopF 0 0xFF).wellFormed = true := by decide

/-! ## Decoding: every constructor, the fields in binary, fam_x_y_n -/

theorem test_decode_cls : decode 0b0000_0000_1110_0000 = .cls 0x0E := by decide
theorem test_decode_ret : decode 0b0000_0000_1110_1110 = .ret 0x0E := by decide
theorem test_decode_jp : decode 0b0001_0011_0000_0000 = .jp 0x300 := by decide
theorem test_decode_call : decode 0b0010_1010_1011_1100 = .call 0xABC := by decide
theorem test_decode_seImm : decode 0b0011_0011_0010_1010 = .seImm 0x3 0x2A := by decide
theorem test_decode_sneImm : decode 0b0100_0011_0010_1010 = .sneImm 0x3 0x2A := by decide
theorem test_decode_seReg : decode 0b0101_0001_0010_0000 = .seReg 0x1 0x2 0x0 := by decide
theorem test_decode_ldImm : decode 0b0110_1010_0010_1100 = .ldImm 0xA 0x2C := by decide
theorem test_decode_addImm : decode 0b0111_0010_0010_0000 = .addImm 0x2 0x20 := by decide
theorem test_decode_ldReg : decode 0b1000_0001_0010_0000 = .ldReg 0x1 0x2 := by decide
theorem test_decode_orReg : decode 0b1000_0001_0010_0001 = .orReg 0x1 0x2 := by decide
theorem test_decode_andReg : decode 0b1000_0001_0010_0010 = .andReg 0x1 0x2 := by decide
theorem test_decode_xorReg : decode 0b1000_0001_0010_0011 = .xorReg 0x1 0x2 := by decide
theorem test_decode_addReg : decode 0b1000_0001_0010_0100 = .addReg 0x1 0x2 := by decide
theorem test_decode_subReg : decode 0b1000_0001_0010_0101 = .subReg 0x1 0x2 := by decide
theorem test_decode_shr : decode 0b1000_0001_0010_0110 = .shr 0x1 0x2 := by decide
theorem test_decode_subnReg : decode 0b1000_0001_0010_0111 = .subnReg 0x1 0x2 := by decide
theorem test_decode_shl : decode 0b1000_0001_0010_1110 = .shl 0x1 0x2 := by decide
theorem test_decode_sneReg : decode 0b1001_0001_0010_1111 = .sneReg 0x1 0x2 0xF := by decide
theorem test_decode_ldI : decode 0b1010_0010_1111_0000 = .ldI 0x2F0 := by decide
theorem test_decode_jpV0 : decode 0b1011_0011_0000_0000 = .jpV0 0x300 := by decide
theorem test_decode_rnd : decode 0b1100_0011_0000_1111 = .rnd 0x3 0x0F := by decide
theorem test_decode_drw : decode 0b1101_0001_0010_0101 = .drw 0x1 0x2 0x5 := by decide
theorem test_decode_skp : decode 0b1110_0101_1001_1110 = .skp 0x5 0x9 := by decide
theorem test_decode_sknp : decode 0b1110_0101_1010_0001 = .sknp 0x5 0xA := by decide
theorem test_decode_ldVxDT : decode 0b1111_0011_0000_0111 = .ldVxDT 0x3 := by decide
theorem test_decode_ldVxK : decode 0b1111_0011_0000_1010 = .ldVxK 0x3 := by decide
theorem test_decode_ldDTVx : decode 0b1111_0011_0001_0101 = .ldDTVx 0x3 := by decide
theorem test_decode_ldSTVx : decode 0b1111_0011_0001_1000 = .ldSTVx 0x3 := by decide
theorem test_decode_addIVx : decode 0b1111_0011_0001_1110 = .addIVx 0x3 := by decide
theorem test_decode_ldFVx : decode 0b1111_0011_0010_1001 = .ldFVx 0x3 := by decide
theorem test_decode_ldBVx : decode 0b1111_0011_0011_0011 = .ldBVx 0x3 := by decide
theorem test_decode_ldMemVx : decode 0b1111_0011_0101_0101 = .ldMemVx 0x3 := by decide
theorem test_decode_ldVxMem : decode 0b1111_0011_0110_0101 = .ldVxMem 0x3 := by decide
theorem test_decode_nop0 : decode 0b0000_0001_0010_0001 = .nop0 0x12 0x1 := by decide
theorem test_decode_nop8 : decode 0b1000_0001_0010_1000 = .nop8 0x12 0x8 := by decide
theorem test_decode_nopE : decode 0b1110_0001_0010_0000 = .nopE 0x12 0x0 := by decide
theorem test_decode_nopF : decode 0b1111_0001_1111_1111 = .nopF 0x1 0xFF := by decide

/-- R80: one byte is no opcode, and two are, the high byte first. -/
theorem test_decode_bytes_truncated : decodeBytes [0x12] = .error .truncated := by decide
theorem test_decode_bytes_rest : decodeBytes [0x12, 0x34, 0x56] = .ok (.jp 0x234, [0x56]) := by decide
theorem test_decode_table_word : decodeTableWord 16 0x8014 = some (.addReg 0x0 0x1) := by decide

/-! ## One step -/

/-- The reset state with some registers written. -/
def start (regs : List (Nibble × Byte)) : State := regs.foldl (fun s p => s.writeV p.1 p.2) State.reset

/-- The same with VF = 0x77, as in section 4 of the vectors. -/
def startF (regs : List (Nibble × Byte)) : State := start ((0xF, 0x77) :: regs)

/-- Bytes stored from an address on. -/
def withBytes (a : Nat) (bs : List Byte) (s : State) : State :=
  s.setMem (Memory.writeBytes s.mem a bs)

/-- One key pressed. -/
def pressing (k : Fin 16) (s : State) : State := { s with keys := s.keys.set k.val true }

/-- One step of the word `w` placed at PC, looked at through `look`. -/
def after {α : Type} (w : Nat) (s : State) (look : State → α) : Option α :=
  match step (s.withFetchWord 16 w) with
  | .next t => some (look t)
  | .fault _ => none
  | .refused _ => none

/-- V-C1 -/
theorem test_nop8 : after 0x8008 { start [] with dt := 5, st := 1 } (fun t => (t.pc, t.dt, t.st)) =
    some (0x202, 4, 0) := by decide
/-- V-C2 -/
theorem test_nop0 : after 0x0001 (startF []) (fun t => (t.pc, t.readV 15)) = some (0x202, 0x77) := by decide
/-- V-C3 -/
theorem test_nopE : after 0xE000 (start []) (fun t => t.pc) = some 0x202 := by decide
/-- V-C4 -/
theorem test_nopF : after 0xF0FF (start []) (fun t => t.pc) = some 0x202 := by decide
/-- V-C6 -/
theorem test_cls : after 0x0120 { start [] with fb := Vector.replicate 32 (Vector.replicate 64 true) }
    (fun t => (t.pc, t.pixel 63 31, t.pixel 0 0)) = some (0x202, false, false) := by decide
/-- V-C8 -/
theorem test_fetch_wraps : (withBytes 0 [0x34] (withBytes 0xFFF [0x12] { start [] with pc := 0x0FFF })).fetch =
    0x1234 := by decide
/-- V-C9 -/
theorem test_fetch_masks_pc : after 0x6007 { start [] with pc := 0x1200 } (fun t => (t.readV 0, t.pc)) =
    some (7, 0x1202) := by decide
/-- V-C10 -/
theorem test_pc_wraps : after 0x3000 { start [] with pc := 0xFFFE } (fun t => t.pc) = some 0x0002 := by decide
/-- V-C12 -/
theorem test_halted : after 0x6007 { start [] with fault := .stackUnderflow, faultPc := 0x0200, dt := 9 }
    (fun t => (t.pc, t.dt, t.readV 0)) = some (0x0200, 9, 0) := by decide
/-- V-C13 -/
theorem test_timer_floor : after 0x6000 { start [] with dt := 1 } (fun t => (t.dt, t.st)) = some (0, 0) := by
  decide

/-- V-C7 -/
theorem test_ret_ignored_bits : after 0x0FFE { start [] with sp := 1, stack := (start []).stack.set 0 0x0ABC }
    (fun t => (t.pc, t.sp.val)) = some (0x0ABC, 0) := by decide
/-- V-F5 -/
theorem test_ret_underflow : after 0x00EE { start [] with dt := 4 }
    (fun t => (t.fault.code, t.faultPc, t.faultInfo, t.pc, t.dt)) =
      some (2, 0x0200, 0x00EE, 0x0200, 4) := by decide
/-- S3 -/
theorem test_jp : after 0x1300 (start []) (fun t => t.pc) = some 0x0300 := by decide
/-- V-F3 -/
theorem test_call : after 0x2ABC { start [] with pc := 0x2FE, sp := 15 }
    (fun t => (t.pc, t.sp.val, t.stack[15])) = some (0x0ABC, 16, 0x0300) := by decide
/-- V-F4 -/
theorem test_call_overflow : after 0x2ABC { start [] with pc := 0x2FE, sp := 16 }
    (fun t => (t.fault.code, t.faultPc, t.faultInfo, t.pc, t.sp.val)) =
      some (1, 0x02FE, 0x2ABC, 0x02FE, 16) := by decide
/-- V-F8 -/
theorem test_jpV0 : after 0xBFFF (start [(0, 0xFF)]) (fun t => t.pc) = some 0x10FE := by decide
/-- V-F9 -/
theorem test_seImm_skips : after 0x3342 (start [(3, 0x42)]) (fun t => t.pc) = some 0x0204 := by decide
/-- V-F10 -/
theorem test_seImm_falls : after 0x3343 (start [(3, 0x42)]) (fun t => t.pc) = some 0x0202 := by decide
/-- V-F11 -/
theorem test_sneImm_falls : after 0x4342 (start [(3, 0x42)]) (fun t => t.pc) = some 0x0202 := by decide
/-- V-F12 -/
theorem test_sneImm_skips : after 0x4343 (start [(3, 0x42)]) (fun t => t.pc) = some 0x0204 := by decide
/-- V-F14 -/
theorem test_seReg_skips : after 0x512F (start [(1, 7), (2, 7)]) (fun t => t.pc) = some 0x0204 := by decide
/-- V-F15 -/
theorem test_seReg_falls : after 0x5120 (start [(1, 7), (2, 8)]) (fun t => t.pc) = some 0x0202 := by decide
/-- V-F16 -/
theorem test_sneReg_values : after 0x9120 (start [(1, 1), (2, 1)]) (fun t => t.pc) = some 0x0202 := by decide
/-- V-F17 -/
theorem test_sneReg_skips : after 0x9120 (start [(1, 7), (2, 8)]) (fun t => t.pc) = some 0x0204 := by decide

/-- V-A1 -/
theorem test_ldImm : after 0x65AB (startF [(5, 0x11)]) (fun t => (t.readV 5, t.readV 15)) = some (0xAB, 0x77) := by
  decide
/-- V-A3 -/
theorem test_addImm_no_flag : after 0x7001 (startF [(0, 0xFF)]) (fun t => (t.readV 0, t.readV 15)) =
    some (0x00, 0x77) := by decide
/-- V-A5 -/
theorem test_ldReg : after 0x8010 (startF [(1, 0x3C)]) (fun t => (t.readV 0, t.readV 1, t.readV 15)) =
    some (0x3C, 0x3C, 0x77) := by decide
/-- V-A6 -/
theorem test_orReg : after 0x8011 (startF [(0, 0xF0), (1, 0x3C)]) (fun t => (t.readV 0, t.readV 15)) =
    some (0xFC, 0x77) := by decide
/-- V-A7 -/
theorem test_andReg : after 0x8012 (startF [(0, 0xF0), (1, 0x3C)]) (fun t => (t.readV 0, t.readV 15)) =
    some (0x30, 0x77) := by decide
/-- V-A8 -/
theorem test_xorReg : after 0x8013 (startF [(0, 0xF0), (1, 0x3C)]) (fun t => (t.readV 0, t.readV 15)) =
    some (0xCC, 0x77) := by decide
/-- S2 -/
theorem test_addReg_carry : after 0x8014 (start [(0, 250), (1, 10)]) (fun t => (t.readV 0, t.readV 15)) =
    some (4, 1) := by decide
/-- V-A13 -/
theorem test_addReg_flag_last : after 0x8F14 (start [(15, 200), (1, 100)]) (fun t => t.readV 15) = some 1 := by
  decide
/-- V-A17 -/
theorem test_subReg_borrow : after 0x8015 (startF [(0, 5), (1, 10)]) (fun t => (t.readV 0, t.readV 15)) =
    some (0xFB, 0) := by decide
/-- V-A18 -/
theorem test_subReg_equal : after 0x8015 (startF [(0, 5), (1, 5)]) (fun t => (t.readV 0, t.readV 15)) =
    some (0, 0) := by decide
/-- V-A21 -/
theorem test_subnReg : after 0x8017 (startF [(0, 5), (1, 10)]) (fun t => (t.readV 0, t.readV 15)) =
    some (5, 1) := by decide
/-- V-A22 -/
theorem test_subnReg_borrow : after 0x8017 (startF [(0, 10), (1, 5)]) (fun t => (t.readV 0, t.readV 15)) =
    some (0xFB, 0) := by decide
/-- V-A24 -/
theorem test_shr_in_place : after 0x8016 (startF [(0, 0x05), (1, 0xAA)])
    (fun t => (t.readV 0, t.readV 15, t.readV 1)) = some (0x02, 1, 0xAA) := by decide
/-- V-A28 -/
theorem test_shr_flag_last : after 0x8F06 (start [(15, 0x02)]) (fun t => t.readV 15) = some 0 := by decide
/-- V-A29 -/
theorem test_shl_in_place : after 0x801E (startF [(0, 0x81), (1, 0x55)])
    (fun t => (t.readV 0, t.readV 15, t.readV 1)) = some (0x02, 1, 0x55) := by decide
/-- V-A32 -/
theorem test_shl_flag_last : after 0x8FFE (start [(15, 0x80)]) (fun t => t.readV 15) = some 1 := by decide
/-- V-A33, for every byte the generator may deliver -/
theorem test_rnd : after 0xC00F (start []) (fun t => t.readV 0) = some (Config.rnd 0 &&& 0x0F) := rfl
theorem test_rnd_consumes : after 0xC00F (start []) (fun t => t.draws) = some 1 := rfl

/-- V-M2 -/
theorem test_ldI : after 0xAFFF (start []) (fun t => t.i) = some 0x0FFF := by decide
/-- V-M3 -/
theorem test_addIVx : after 0xF21E { startF [(2, 1)] with i := 0x0FFF } (fun t => (t.i, t.readV 15, t.fault)) =
    some (0x1000, 0x77, .noFault) := by decide
/-- V-M4 -/
theorem test_addIVx_wraps : after 0xF21E { start [(2, 2)] with i := 0xFFFF } (fun t => t.i) = some 0x0001 := by
  decide
/-- V-M7 -/
theorem test_ldFVx : after 0xF029 (start [(0, 0x0F)]) (fun t => t.i) = some 0x009B := by decide
/-- V-M8 -/
theorem test_ldFVx_low_nibble : after 0xF029 (start [(0, 0x1A)]) (fun t => t.i) = some 0x0082 := by decide
/-- V-M9 -/
theorem test_ldBVx : after 0xF033 { start [(0, 255)] with i := 0x0FFD }
    (fun t => [0xFFD, 0xFFE, 0xFFF].map t.readByte) = some [2, 5, 5] := by decide
/-- V-M10 -/
theorem test_ldBVx_fault : after 0xF033 (withBytes 0xFFE [0xAA, 0xBB] { start [(0, 255)] with i := 0x0FFE })
    (fun t => (t.fault.code, t.faultPc, t.faultInfo, t.readByte 0xFFE, t.readByte 0xFFF, t.pc)) =
      some (3, 0x200, 0x1000, 0xAA, 0xBB, 0x200) := by decide
/-- V-M16 -/
theorem test_ldMemVx : after 0xF055 { start [(0, 0xAB), (1, 0xCD)] with i := 0x400 }
    (fun t => (t.readByte 0x400, t.readByte 0x401, t.i)) = some (0xAB, 0, 0x400) := by decide
/-- V-M15 -/
theorem test_ldMemVx_fault : after 0xFF55 { start [(0, 0x10)] with i := 0x0FF1 }
    (fun t => (t.fault.code, t.faultInfo, t.readByte 0xFF1)) = some (3, 0x1000, 0) := by decide
/-- V-M17 -/
theorem test_ldVxMem : after 0xF265 (withBytes 0x400 [1, 2, 3, 4] { start [(3, 0x99)] with i := 0x400 })
    (fun t => [0, 1, 2, 3].map t.readV) = some [1, 2, 3, 0x99] := by decide
/-- V-M19 -/
theorem test_ldVxMem_fault : after 0xF165 { start [(0, 0x11), (1, 0x22)] with i := 0x0FFF }
    (fun t => (t.fault.code, t.faultInfo, t.readV 0, t.readV 1)) = some (3, 0x1000, 0x11, 0x22) := by decide

/-- V-D4 -/
theorem test_drw_wraps : after 0xD011 (withBytes 0x300 [0x80] { start [(0, 70), (1, 40)] with i := 0x300 })
    (fun t => (t.pixel 6 8, t.pixel 7 8, t.readV 15)) = some (true, false, 0) := by decide
/-- V-D5 -/
theorem test_drw_collision : after 0xD011
    (withBytes 0x300 [0xC0] { start [] with i := 0x300, fb := Screen.off.put 0 true })
    (fun t => (t.pixel 0 0, t.pixel 1 0, t.readV 15)) = some (false, true, 1) := by decide

/-- V-K3 -/
theorem test_skp : after 0xE59E (pressing 10 (start [(5, 0x1A)])) (fun t => t.pc) = some 0x0204 := by decide
/-- V-K2 -/
theorem test_skp_falls : after 0xE59E (start [(5, 0x0A)]) (fun t => t.pc) = some 0x0202 := by decide
/-- V-K5 -/
theorem test_sknp : after 0xE5A1 (start [(5, 0x0A)]) (fun t => t.pc) = some 0x0204 := by decide
/-- V-K6 -/
theorem test_sknp_falls : after 0xE5A1 (pressing 10 (start [(5, 0x0A)])) (fun t => t.pc) = some 0x0202 := by
  decide
/-- V-K7, its last step: the lowest pressed key -/
theorem test_ldVxK : after 0xF30A (pressing 9 (pressing 7 (start []))) (fun t => (t.readV 3, t.pc)) =
    some (7, 0x0202) := by decide
/-- V-K7, its first step: the stalled cycle decays DT -/
theorem test_ldVxK_stalls : after 0xF30A { start [] with dt := 2 } (fun t => (t.readV 3, t.pc, t.dt)) =
    some (0, 0x0200, 1) := by decide
/-- V-T1 -/
theorem test_ldVxDT : after 0xF407 { start [] with dt := 0x10 } (fun t => (t.readV 4, t.dt)) =
    some (0x10, 0x0F) := by decide
/-- V-T3 -/
theorem test_ldDTVx : after 0xF015 (start [(0, 3)]) (fun t => (t.dt, t.st)) = some (2, 0) := by decide
/-- V-T6 -/
theorem test_ldSTVx : after 0xF118 (start [(1, 0xFF)]) (fun t => (t.dt, t.st)) = some (0, 0xFE) := by decide
/-- V-R5 -/
theorem test_loadRom_odd : loadRom [0x12] (start []) =
    .next (.ok, { start [] with mem := [(0x200, 0x12)], romLoaded := true }) := rfl
/-- V-R6 -/
theorem test_reset_clears_latch :
    (driverReset { start [(0, 1)] with pc := 0x300, fault := .stackOverflow, running := true }) =
      State.reset := rfl
/-- R28: writing what an unlisted cell reads as unlists it; the first glyph byte is at 0x050 (V-R1). -/
theorem test_memory_canonical :
    Memory.write (Memory.write [] 0x050 0x12) 0x050 0xF0 = [] ∧
      Memory.write (Memory.write [] 0x301 1) 0x300 2 = [(0x300, 2), (0x301, 1)] := by decide

/-! ## Witnesses: for each statement with hypotheses, states and operands that meet them, clause by clause -/

/-- The reset state with an opcode placed at its PC. -/
def at200 (w : Nat) (s : State) : State := s.withFetchWord 16 w

theorem witness_DecodeOfEncode :
    (Instr.nopF 0xF 0xFF).wellFormed = true ∧ (Instr.ret 0xFF).wellFormed = true := by decide

theorem witness_OnlySelectingBitsSelect :
    0x0120#16 &&& selectMask (decode 0x00E0#16) = selectPattern (decode 0x00E0#16) := by decide

theorem witness_IgnoredBitsHaveNoEffect : 0 < ({ start [] with sp := 1 } : State).sp.val := by decide

theorem witness_StepRunsDecodedInstruction :
    (start []).fault = .noFault ∧ (Instr.jp 0x300).wellFormed = true ∧
      decodeBytes [(at200 0x1300 (start [])).readByte (0x200 % 4096),
        (at200 0x1300 (start [])).readByte ((0x200 + 1) % 4096)] = .ok (.jp 0x300, []) := by decide

/-- Its two clauses: an execute phase without and with a fault. -/
theorem witness_StepRunsDecodedInstruction_next :
    ∃ u, exec (.jp 0x300) { at200 0x1300 (start []) with running := true, pc := 0x200 + 2 } = .next u ∧
      u.fault = .noFault := ⟨_, rfl, rfl⟩

theorem witness_StepRunsDecodedInstruction_fault :
    decodeBytes [(at200 0x00EE (start [])).readByte (0x200 % 4096),
        (at200 0x00EE (start [])).readByte ((0x200 + 1) % 4096)] = .ok (.ret 0x0E, []) ∧
      ∃ u, exec (.ret 0x0E) { at200 0x00EE (start []) with running := true, pc := 0x200 + 2 } = .next u ∧
        u.fault ≠ .noFault := ⟨rfl, _, rfl, by decide⟩

theorem witness_HaltedCoreNeverChanges :
    ({ start [] with fault := .stackUnderflow } : State).fault ≠ .noFault := by decide

/-- Each row of R240's table, at its boundary. -/
theorem witness_StepFaultsExactlyByTable_call :
    faultOf (decode (at200 0x2ABC { start [] with sp := 16 }).fetch) { start [] with sp := 16 } =
        some (.stackOverflow, 0x2ABC) ∧
      faultOf (decode (at200 0x2ABC { start [] with sp := 15 }).fetch) { start [] with sp := 15 } = none := by
  decide

theorem witness_StepFaultsExactlyByTable_ret :
    faultOf (.ret 0x0E) (start []) = some (.stackUnderflow, 0x00EE) ∧
      faultOf (.ret 0x0E) { start [] with sp := 1 } = none := by decide

theorem witness_StepFaultsExactlyByTable_drw :
    faultOf (.drw 0 1 2) { start [] with i := 0xFFF } = some (.addressOutOfRange, 0x1000) ∧
      faultOf (.drw 0 1 1) { start [] with i := 0xFFF } = none ∧
      faultOf (.drw 0 1 0) { start [] with i := 0x2000 } = none := by decide

theorem witness_StepFaultsExactlyByTable_ldBVx :
    faultOf (.ldBVx 0) { start [] with i := 0x2000 } = some (.addressOutOfRange, 0x2000) ∧
      faultOf (.ldBVx 0) { start [] with i := 0xFFE } = some (.addressOutOfRange, 0x1000) ∧
      faultOf (.ldBVx 0) { start [] with i := 0xFFD } = none := by decide

theorem witness_StepFaultsExactlyByTable_ldMemVx :
    faultOf (.ldMemVx 15) { start [] with i := 0xFF1 } = some (.addressOutOfRange, 0x1000) ∧
      faultOf (.ldVxMem 15) { start [] with i := 0xFF1 } = some (.addressOutOfRange, 0x1000) ∧
      faultOf (.ldMemVx 15) { start [] with i := 0xFF0 } = none ∧
      faultOf (.ldVxMem 15) { start [] with i := 0xFF0 } = none := by decide

theorem witness_PcAtEndOfCycle :
    (at200 0x1300 (start [])).fault = .noFault ∧
      faultOf (decode (at200 0x1300 (start [])).fetch) (at200 0x1300 (start [])) = none := by decide

theorem witness_TimersAtEndOfCycle :
    decode (at200 0xF015 (start [])).fetch = .ldDTVx 0 ∧ decode (at200 0xF118 (start [])).fetch = .ldSTVx 1 ∧
      faultOf (.ldDTVx 0) (start []) = none ∧ faultOf (.ldSTVx 1) (start []) = none ∧
      faultOf (.ret 0x0E) (start []) ≠ none := by decide

/-- The other two clauses: neither timer is set. -/
theorem witness_TimersAtEndOfCycle_others :
    (∀ x, decode (at200 0x1300 (start [])).fetch ≠ .ldDTVx x) ∧
      ∀ x, decode (at200 0x1300 (start [])).fetch ≠ .ldSTVx x := by decide

theorem witness_DelayTimerCountsCompletedCycles :
    ∃ t, core.run 1 (at200 0x1300 { start [] with dt := 5 }) = .next t ∧ t.fault = .noFault ∧
      ∀ j u, j < 1 → core.run j (at200 0x1300 { start [] with dt := 5 }) = .next u →
        ∀ x, decode u.fetch ≠ .ldDTVx x :=
  ⟨_, rfl, rfl, fun j u hj hu => by
    obtain rfl : j = 0 := by omega
    cases hu
    decide⟩

theorem witness_Inv : (at200 0x00EE (start [])).Inv := ⟨by unfold State.memOk; decide, by unfold State.latchOk; decide⟩

theorem witness_StepKeepsInvariant :
    ∃ t, step (at200 0x00EE (start [])) = .next t ∧ t.fault = .stackUnderflow := ⟨_, rfl, rfl⟩

theorem witness_HostMovesKeepInvariant :
    (∃ t, drive .reset (at200 0x00EE (start [])) = .next t) ∧
      (∃ t, drive (.loadRom [0x12, 0x34]) (at200 0x00EE (start [])) = .next t) ∧
      ∃ t, drive (.writeKeys (Vector.replicate 16 true)) (at200 0x00EE (start [])) = .next t :=
  ⟨⟨_, rfl⟩, ⟨_, rfl⟩, ⟨_, rfl⟩⟩

theorem witness_ResetValues : ∃ t s, t = driverReset s ∧ s.fault = .stackOverflow :=
  ⟨_, { start [] with fault := .stackOverflow }, rfl, rfl⟩

theorem witness_CallPushesReturnAddress :
    ({ start [] with sp := 15 } : State).sp.val < 16 ∧ ({ start [] with sp := 16 } : State).sp.val = 16 := by
  decide

theorem witness_ReturnPopsAddress :
    0 < ({ start [] with sp := 1 } : State).sp.val ∧ (start []).sp.val = 0 := by decide

theorem witness_ReturnUndoesCall : ({ start [] with sp := 15 } : State).sp.val < 16 := by decide

/-- x ≠ 15 in the flag-writing instructions, beside x = 15, which their other clauses cover. -/
theorem witness_AddRegistersSetsCarry : (14 : Nibble) ≠ 15 := by decide
theorem witness_SubtractSetsStrictGreater : (0 : Nibble) ≠ 15 := by decide
theorem witness_ShiftsSetBitShiftedOut : (1 : Nibble) ≠ 15 := by decide

theorem witness_OnlyFlagWritersWriteVF :
    (∃ t, exec (.ldImm 14 1) (start []) = .next t) ∧ writesFlag (.ldImm 14 1) = false ∧
      xField (.ldImm 14 1) ≠ some 15 ∧ (∃ t, exec (.drw 15 15 1) (start []) = .next t) ∧
      writesFlag (.drw 15 15 1) = true ∧ faultOf (.drw 15 15 1) (start []) = none :=
  ⟨⟨_, rfl⟩, rfl, by decide, ⟨_, rfl⟩, rfl, by decide⟩

theorem witness_StoreBcdWritesDigits :
    ({ start [] with i := 0xFFD } : State).i.toNat + 2 ≤ 0xFFF ∧
      0xFFF < ({ start [] with i := 0xFFE } : State).i.toNat + 2 := by decide

theorem witness_RegisterDumpStoresRegisters :
    ({ start [] with i := 0xFF0 } : State).i.toNat + (15 : Nibble).toNat ≤ 0xFFF ∧
      0xFFF < ({ start [] with i := 0xFF1 } : State).i.toNat + (15 : Nibble).toNat := by decide

theorem witness_RegisterLoadReadsMemory :
    ({ start [] with i := 0xFFF } : State).i.toNat + (0 : Nibble).toNat ≤ 0xFFF ∧
      0xFFF < ({ start [] with i := 0xFFF } : State).i.toNat + (1 : Nibble).toNat := by decide

theorem witness_LoadUndoesDump :
    ({ start [] with i := 0xFF0 } : State).i.toNat + (15 : Nibble).toNat ≤ 0xFFF ∧
      ∃ t t' : State, exec (.ldMemVx 15) { start [] with i := 0xFF0 } = .next t ∧ t'.i = t.i ∧ t'.mem = t.mem :=
  ⟨by decide, _, _, rfl, rfl, rfl⟩

theorem witness_StoredBytesAreFetched :
    ({ start [] with i := 0xFFE } : State).i.toNat + 1 ≤ 0xFFF ∧
      (0x1FFE : Word16).toNat % 4096 = ({ start [] with i := 0xFFE } : State).i.toNat := by decide

theorem witness_PlacedWordIsFetched : 0xFFFF < 65536 := by decide

theorem witness_CanonicalMemoriesAreEqual :
    Memory.wf [(0x050, 0x12), (0xFFF, 0xFF)] = true ∧
      ∀ a, Memory.read [(0x050, 0x12), (0xFFF, 0xFF)] a = Memory.read [(0x050, 0x12), (0xFFF, 0xFF)] a :=
  ⟨by decide, fun _ => rfl⟩

/-- One set bit at the last byte of memory, drawn over the pixel (0, 0), the pixel on or off. -/
def drawing (on : Bool) : State :=
  withBytes 0xFFF [0x80] { start [] with i := 0xFFF, fb := Screen.off.put 0 on }

theorem witness_DrawXorsSpriteAndSetsCollision_ranges :
    ((0 : Nibble).toNat = 0 ∨ (0x2000 : Word16).toNat + (0 : Nibble).toNat - 1 ≤ 0xFFF) ∧
      ((1 : Nibble).toNat = 0 ∨ (drawing true).i.toNat + (1 : Nibble).toNat - 1 ≤ 0xFFF) ∧
      0 < (2 : Nibble).toNat ∧ 0xFFF < (drawing true).i.toNat + (2 : Nibble).toNat - 1 := by decide

/-- The pixel (0, 0) is covered; with it on there is a collision. -/
theorem witness_DrawXorsSpriteAndSetsCollision_covered :
    (drawing true).spriteCovers 0 0 1 0 0 ∧ (drawing true).pixel 0 0 = true ∧
      (drawing false).spriteCovers 0 0 1 0 0 ∧ (drawing false).pixel 0 0 = false :=
  ⟨⟨0, 0, by decide⟩, by decide, ⟨0, 0, by decide⟩, by decide⟩

/-- With n = 0 nothing is covered and there is no collision. -/
theorem witness_DrawXorsSpriteAndSetsCollision_uncovered :
    (¬ (drawing true).spriteCovers 0 0 0 5 5) ∧
      ¬ ∃ px py, (drawing true).spriteCovers 0 0 0 px py ∧ (drawing true).pixel px py = true := by
  simp [State.spriteCovers]

theorem witness_DrawTwiceRestoresScreen :
    (0 : Nibble) ≠ 15 ∧ (14 : Nibble) ≠ 15 ∧
      ((1 : Nibble).toNat = 0 ∨ (drawing true).i.toNat + (1 : Nibble).toNat - 1 ≤ 0xFFF) := by decide

theorem witness_KeySkipsTestKey : (0xA : Nibble).toNat = ((start [(5, 0x1A)]).readV 5).toNat % 16 := by decide

theorem witness_WaitForKeyTakesLowestKey :
    (pressing 9 (pressing 7 (start []))).readKey 7 = true ∧
      (∀ j : Nibble, j.toNat < (7 : Nibble).toNat → (pressing 9 (pressing 7 (start []))).readKey j = false) ∧
      (pressing 0 (start [])).readKey 0 = true ∧ (pressing 15 (start [])).readKey 15 = true ∧
      ∀ k, (start []).readKey k = false := by decide

theorem witness_KeyWaitStallsWhileTimersCount :
    (at200 0xF30A (start [])).fault = .noFault ∧ decode (at200 0xF30A (start [])).fetch = .ldVxK 3 ∧
      ∀ k, (at200 0xF30A (start [])).readKey k = false := by decide

theorem witness_GetDelayTimerReadsBeforeDecay :
    (at200 0xF407 (start [])).fault = .noFault ∧ decode (at200 0xF407 (start [])).fetch = .ldVxDT 4 := by decide

/-- One unmapped word for each of the four families. -/
theorem witness_UnmappedWordsAreNoOps :
    ((at200 0x0FFF (start [])).fetch.toNat / 4096 = 0x0 ∧
        (at200 0x0FFF (start [])).fetch.toNat % 16 ∉ [0x0, 0xE]) ∧
      ((at200 0x8008 (start [])).fetch.toNat / 4096 = 0x8 ∧
        (at200 0x8008 (start [])).fetch.toNat % 16 ∉ [0, 1, 2, 3, 4, 5, 6, 7, 0xE]) ∧
      ((at200 0xE000 (start [])).fetch.toNat / 4096 = 0xE ∧
        (at200 0xE000 (start [])).fetch.toNat % 16 ∉ [0xE, 0x1]) ∧
      ((at200 0xF0FF (start [])).fetch.toNat / 4096 = 0xF ∧ (at200 0xF0FF (start [])).fetch.toNat % 256 ∉
        [0x07, 0x0A, 0x15, 0x18, 0x1E, 0x29, 0x33, 0x55, 0x65]) := by decide

/-- A step that writes the framebuffer, one that writes I, one that writes a stack slot and SP. -/
theorem witness_WritersOfEachPieceOfState :
    after 0x00E0 (drawing true) (fun t => decide (t.fb ≠ (drawing true).fb)) = some true ∧
      after 0xA001 (start []) (fun t => decide (t.i ≠ 0)) = some true ∧
      after 0x2400 (start []) (fun t => decide (t.stack[0] ≠ 0 ∧ t.sp ≠ 0)) = some true := by decide

theorem witness_MemoryWrittenOnlyByStores :
    after 0xF033 { start [(0, 255)] with i := 0x300 } (fun t => decide (t.readByte 0x302 ≠ 0)) = some true ∧
      after 0xF155 { start [(1, 7)] with i := 0xFFE } (fun t => decide (t.readByte 0xFFF ≠ 0)) = some true := by
  decide

theorem witness_SoundTimerIsNeverRead : ∃ t, step (at200 0xF118 (start [])) = .next t := ⟨_, rfl⟩

theorem witness_KeysReadOnlyByKeyInstructions :
    (∃ t, step (at200 0x1300 (start [])) = .next t) ∧
      (∀ x ign, decode (at200 0x1300 (start [])).fetch ≠ .skp x ign) ∧
      (∀ x ign, decode (at200 0x1300 (start [])).fetch ≠ .sknp x ign) ∧
      ∀ x, decode (at200 0x1300 (start [])).fetch ≠ .ldVxK x :=
  ⟨⟨_, rfl⟩, by decide, by decide, by decide⟩

theorem witness_DrawsReadOnlyByRandomAnd :
    (∃ t, step (at200 0x1300 (start [])) = .next t) ∧ decode (at200 0x1300 (start [])).fetch = .jp 0x300 :=
  ⟨⟨_, rfl⟩, by decide⟩

/-- Its four clauses, the lengths at both sides of 3584 (V-R2, V-R3). -/
theorem witness_LoadRomContract :
    (start []).running = false ∧ (start []).romLoaded = false ∧
      (List.replicate 3584 (0xAA : Byte)).length ≤ 3584 ∧ 3584 < (List.replicate 3585 (0xAA : Byte)).length ∧
      ({ start [] with running := true } : State).running = true ∧
      ({ start [] with romLoaded := true } : State).romLoaded = true := by
  exact ⟨rfl, rfl, by rw [List.length_replicate], by rw [List.length_replicate]; omega, rfl, rfl⟩

end Sys2Proof.Tests
end

section
/-! # Noninterference: the keypad, the sound timer and the count of draws

Most instructions never look at K, ST or the count of draws. Such an instruction does the same to a state and to the state
with these three rewritten: its execute phase, and the step around it, commute with the rewriting. -/

namespace Sys2Proof.Machine

/-- `s` with K, ST and the count of draws rewritten by `κ`, `σ` and `δ`. -/
def State.mapAside (κ : Vector Bool 16 → Vector Bool 16) (σ : Byte → Byte) (δ : Nat → Nat) (s : State) : State :=
  { s with keys := κ s.keys, st := σ s.st, draws := δ s.draws }

/-- What `i` looks at or writes of K, ST and the count of draws is not rewritten. -/
def Ignores (κ : Vector Bool 16 → Vector Bool 16) (σ : Byte → Byte) (δ : Nat → Nat) : Instr → Prop
  | .skp _ _ | .sknp _ _ | .ldVxK _ => κ = id
  | .ldSTVx _ => σ = id
  | .rnd _ _ => δ = id
  | _ => True

/-- Applies `f` to the next state of an answer. -/
def mapNext (f : State → State) : Answer → Answer
  | .next s => .next (f s)
  | .fault r => .fault r
  | .refused r => .refused r

@[simp] theorem mapNext_next (f : State → State) (s : State) : mapNext f (.next s) = .next (f s) := rfl

section
variable (κ : Vector Bool 16 → Vector Bool 16) (σ : Byte → Byte) (δ : Nat → Nat) (s : State)

/-! ## The state's operations -/

theorem skipIf_mapAside (c : Bool) : (s.mapAside κ σ δ).skipIf c = (s.skipIf c).mapAside κ σ δ := by
  cases c <;> rfl

theorem push_mapAside (w : Word16) :
    (s.mapAside κ σ δ).push w = (s.push w).map (State.mapAside κ σ δ) := by
  by_cases hroom : s.sp.val < 16
  · rw [push_room w hroom, push_room (s := s.mapAside κ σ δ) w hroom]
    rfl
  · have hfull : s.sp.val = 16 := by omega
    rw [push_full w hfull, push_full (s := s.mapAside κ σ δ) w hfull]
    rfl

theorem pop_mapAside :
    (s.mapAside κ σ δ).pop = s.pop.map (Prod.map id (State.mapAside κ σ δ)) := by
  by_cases hsome : 0 < s.sp.val
  · rw [pop_some hsome, pop_some (s := s.mapAside κ σ δ) hsome]
    rfl
  · have hempty : s.sp.val = 0 := by omega
    rw [pop_empty hempty, pop_empty (s := s.mapAside κ σ δ) hempty]
    rfl

theorem guarded_mapAside (len : Nat) {s' u : State} (hu : u = s'.mapAside κ σ δ) :
    (s.mapAside κ σ δ).guarded len u = mapNext (State.mapAside κ σ δ) (s.guarded len s') := by
  have hrange : (s.mapAside κ σ δ).outOfRange len = s.outOfRange len := rfl
  subst hu
  unfold State.guarded
  rw [hrange]
  cases s.outOfRange len <;> rfl

theorem foldl_writeV_mapAside (g : Nibble → Byte) (l : List Nibble) :
    l.foldl (fun t k => t.writeV k (g k)) (s.mapAside κ σ δ) =
      (l.foldl (fun t k => t.writeV k (g k)) s).mapAside κ σ δ := by
  induction l generalizing s with
  | nil => rfl
  | cons k l ih => exact ih (s.writeV k (g k))

theorem loadRegisters_mapAside (x : Nibble) :
    (s.mapAside κ σ δ).loadRegisters x = (s.loadRegisters x).mapAside κ σ δ :=
  foldl_writeV_mapAside κ σ δ s (fun k => s.readByte (s.dataAddress k.toNat)) (registersUpTo x)

/-! ## The execute phase and the step -/

theorem execRet_mapAside (ign : Byte) :
    execRet ign (s.mapAside κ σ δ) = mapNext (State.mapAside κ σ δ) (execRet ign s) := by
  unfold execRet
  rw [pop_mapAside]
  cases s.pop <;> rfl

theorem execCall_mapAside (nnn : Addr12) :
    execCall nnn (s.mapAside κ σ δ) = mapNext (State.mapAside κ σ δ) (execCall nnn s) := by
  have hpc : (s.mapAside κ σ δ).pc = s.pc := rfl
  unfold execCall
  rw [push_mapAside, hpc]
  cases s.push s.pc <;> rfl

theorem execLdVxK_mapAside (x : Nibble) :
    execLdVxK x (s.mapAside id σ δ) = mapNext (State.mapAside id σ δ) (execLdVxK x s) := by
  have hkey : (s.mapAside id σ δ).firstKey = s.firstKey := rfl
  unfold execLdVxK
  rw [hkey]
  cases s.firstKey <;> rfl

variable {κ σ δ}

theorem exec_mapAside {i : Instr} (h : Ignores κ σ δ i) :
    exec i (s.mapAside κ σ δ) = mapNext (State.mapAside κ σ δ) (exec i s) := by
  cases i with
  | ret ign => exact execRet_mapAside κ σ δ s ign
  | call nnn => exact execCall_mapAside κ σ δ s nnn
  | seImm | sneImm | seReg | sneReg => exact congrArg _ (skipIf_mapAside ..)
  | skp | sknp => obtain rfl : κ = id := h; exact congrArg _ (skipIf_mapAside ..)
  | ldVxK x => obtain rfl : κ = id := h; exact execLdVxK_mapAside σ δ s x
  | ldSTVx => obtain rfl : σ = id := h; rfl
  | rnd => obtain rfl : δ = id := h; rfl
  | drw | ldBVx | ldMemVx => exact guarded_mapAside κ σ δ s _ rfl
  | ldVxMem x => exact guarded_mapAside κ σ δ s _ (loadRegisters_mapAside κ σ δ s x)
  | _ => rfl

/-- ST is kept here, since the end of the cycle reads it. -/
theorem endCycle_mapAside : (s.mapAside κ id δ).endCycle = s.endCycle.mapAside κ id δ := by
  by_cases hf : s.fault = .noFault
  · rw [endCycle_clear hf, endCycle_clear (s := s.mapAside κ id δ) hf]
    rfl
  · rw [endCycle_faulted hf, endCycle_faulted (s := s.mapAside κ id δ) hf]

theorem finish_mapNext_mapAside (a : Answer) :
    finish (mapNext (State.mapAside κ id δ) a) = mapNext (State.mapAside κ id δ) (finish a) := by
  cases a with
  | next u => exact congrArg _ (endCycle_mapAside u)
  | fault r | refused r => rfl

theorem step_mapAside (h : Ignores κ id δ (decode s.fetch)) :
    step (s.mapAside κ id δ) = mapNext (State.mapAside κ id δ) (step s) := by
  by_cases hf : s.fault = .noFault
  · calc step (s.mapAside κ id δ)
        = finish (exec (decode s.fetch) (s.beginCycle.mapAside κ id δ)) := step_running (s := s.mapAside κ id δ) hf
      _ = mapNext (State.mapAside κ id δ) (finish (exec (decode s.fetch) s.beginCycle)) := by
          rw [exec_mapAside _ h, finish_mapNext_mapAside]
      _ = mapNext (State.mapAside κ id δ) (step s) := by rw [step_running hf]
  · rw [step_halted hf, step_halted (s := s.mapAside κ id δ) hf, mapNext_next]

end

/-! ## The random byte (R8, R162) -/

theorem ignores_draws (δ : Nat → Nat) {i : Instr} (h : ∀ x kk, i ≠ .rnd x kk) : Ignores id id δ i := by
  cases i with
  | rnd x kk => exact absurd rfl (h x kk)
  | skp | sknp | ldVxK | ldSTVx => rfl
  | _ => trivial

theorem step_withDraws {s t : State} (d : Nat) (h : step s = .next t) (hr : ∀ x kk, decode s.fetch ≠ .rnd x kk) :
    step { s with draws := d } = .next { t with draws := d } := by
  have hstep := step_mapAside s (ignores_draws (fun _ => d) hr)
  rw [h] at hstep
  exact hstep

/-- Settles O56. That no draw is consumed is the second clause at the state's own count: a step of `s` itself ends with
the count it began with. -/
theorem drawsReadOnlyByRandomAnd : Obligations.DrawsReadOnlyByRandomAnd := by
  intro s t d h hr
  have hown : Host.Outcome.next t = .next { t with draws := s.draws } :=
    h.symm.trans (step_withDraws s.draws h hr)
  have ht : t = { t with draws := s.draws } := Host.Outcome.next.inj hown
  exact ⟨congrArg (·.draws) ht, step_withDraws d h hr⟩

end Sys2Proof.Machine
end

section
/-! # The sound timer and the keypad: no reader but the named ones -/

namespace Sys2Proof.Machine

/-! ## The sound timer (R26) -/

theorem ignores_sound (σ : Byte → Byte) {i : Instr} (h : ∀ x, i ≠ .ldSTVx x) : Ignores id σ id i := by
  cases i with
  | ldSTVx x => exact absurd rfl (h x)
  | skp | sknp | ldVxK | rnd => rfl
  | _ => trivial

/-- LD ST, Vx overwrites the other ST; every other instruction carries it along. -/
theorem exec_withSound {i : Instr} {s t : State} (b : Byte) (h : exec i s = .next t) :
    ∃ c, exec i { s with st := b } = .next { t with st := c } := by
  by_cases hst : ∃ x, i = .ldSTVx x
  · obtain ⟨x, rfl⟩ := hst
    cases h
    exact ⟨s.readV x, rfl⟩
  · have hexec := exec_mapAside s (ignores_sound (fun _ => b) (not_exists.1 hst))
    rw [h] at hexec
    exact ⟨b, hexec⟩

theorem endCycle_withSound (s : State) (b : Byte) :
    ∃ c, ({ s with st := b } : State).endCycle = { s.endCycle with st := c } := by
  by_cases hf : s.fault = .noFault
  · rw [endCycle_clear hf, endCycle_clear (s := { s with st := b }) hf]
    exact ⟨decayed b, rfl⟩
  · rw [endCycle_faulted hf, endCycle_faulted (s := { s with st := b }) hf]
    exact ⟨b, rfl⟩

/-- Settles O54. The execute phase and the end of the cycle each leave the two cores different in ST alone. -/
theorem soundTimerIsNeverRead : Obligations.SoundTimerIsNeverRead := by
  intro s t b h
  obtain ⟨hf, rfl⟩ | ⟨hf, u, hexec, rfl⟩ := step_cases h
  · exact ⟨b, step_halted (s := { t with st := b }) hf⟩
  · obtain ⟨b', hexec'⟩ := exec_withSound b hexec
    obtain ⟨c, hend⟩ := endCycle_withSound u b'
    refine ⟨c, ?_⟩
    calc step { s with st := b }
        = finish (exec (decode s.fetch) { s.beginCycle with st := b }) := step_running (s := { s with st := b }) hf
      _ = .next { u.endCycle with st := c } := by rw [hexec', finish, hend]

/-! ## The keypad (R30, R118) -/

theorem ignores_keys (κ : Vector Bool 16 → Vector Bool 16) {i : Instr} (hskp : ∀ x ign, i ≠ .skp x ign)
    (hsknp : ∀ x ign, i ≠ .sknp x ign) (hk : ∀ x, i ≠ .ldVxK x) : Ignores κ id id i := by
  cases i with
  | skp x ign => exact absurd rfl (hskp x ign)
  | sknp x ign => exact absurd rfl (hsknp x ign)
  | ldVxK x => exact absurd rfl (hk x)
  | ldSTVx | rnd => rfl
  | _ => trivial

/-- Settles O55: rewriting K to `ks` commutes with the step of an instruction that ignores K. -/
theorem keysReadOnlyByKeyInstructions : Obligations.KeysReadOnlyByKeyInstructions := by
  intro s t ks h hskp hsknp hk
  have hstep := step_mapAside s (ignores_keys (fun _ => ks) hskp hsknp hk)
  rw [h] at hstep
  exact hstep

end Sys2Proof.Machine
end

section
/-! # Footprints: what an execute phase may change

`footprint s i` names the pieces of state that `i` may write when it runs in `s` (PC apart). Everything else is framed:
once per operation of the state, then for `exec`, then for a whole step. A fault entry fits every footprint, once the
latch and RUNNING are put back (`State.withLatchOf`). -/

namespace Sys2Proof.Machine

/-- What `i` may write in the state `s`, PC and fault entry apart. -/
def footprint (s : State) : Instr → Footprint
  | .cls _ => { screen := true }
  | .ret _ => { sp := true }
  | .call _ => { sp := true, slot := fun k => k == s.sp.val }
  | .ldImm x _ | .addImm x _ | .ldReg x _ | .orReg x _ | .andReg x _ | .xorReg x _ | .ldVxDT x | .ldVxK x =>
    { reg := fun r => r == x }
  | .addReg x _ | .subReg x _ | .subnReg x _ | .shr x _ | .shl x _ => { reg := fun r => r == x || r == 15 }
  | .rnd x _ => { reg := fun r => r == x, draws := true }
  | .drw _ _ _ => { reg := fun r => r == 15, screen := true }
  | .ldI _ | .addIVx _ | .ldFVx _ => { index := true }
  | .ldDTVx _ => { delay := true }
  | .ldSTVx _ => { sound := true }
  | .ldBVx _ => { byte := fun a => decide (s.i.toNat ≤ a ∧ a ≤ s.i.toNat + 2) }
  | .ldMemVx x => { byte := fun a => decide (s.i.toNat ≤ a ∧ a ≤ s.i.toNat + x.toNat) }
  | .ldVxMem x => { reg := fun r => decide (r.toNat ≤ x.toNat) }
  | .jp _ | .jpV0 _ | .seImm _ _ | .sneImm _ _ | .seReg _ _ _ | .sneReg _ _ _ | .skp _ _ | .sknp _ _
  | .nop0 _ _ | .nop8 _ _ | .nopE _ _ | .nopF _ _ => {}

/-- `t` with the latch and RUNNING of `s`. -/
def State.withLatchOf (t s : State) : State :=
  { t with fault := s.fault, faultPc := s.faultPc, faultInfo := s.faultInfo, running := s.running }

/-! ## One frame per operation of the state -/

section
variable {f : Footprint} {s s' t : State}

theorem frame_refl (f : Footprint) (s : State) : Frame f s s where
  regs _ _ := rfl
  index _ := rfl
  sp _ := rfl
  slots _ _ _ := rfl
  delay _ := rfl
  sound _ := rfl
  bytes _ _ := rfl
  screen _ := rfl
  keys := rfl
  fault := rfl
  faultPc := rfl
  faultInfo := rfl
  running := rfl
  romLoaded := rfl
  draws _ := rfl

theorem ne_of_true_of_false {α : Type} {p : α → Bool} {a b : α} (ha : p a = true) (hb : p b = false) : b ≠ a :=
  ne_of_apply_ne p (by rw [ha, hb]; decide)

theorem frame_withV {v : Vector Byte 16} (h : ∀ r, f.reg r = false → ({ s with v := v } : State).readV r = s.readV r) :
    Frame f s { s with v := v } :=
  { frame_refl f s with regs := h }

theorem frame_writeV {x : Nibble} (b : Byte) (h : f.reg x = true) : Frame f s (s.writeV x b) :=
  frame_withV fun _ hr => readV_writeV_ne s (ne_of_true_of_false h hr) b

theorem frame_writeWithFlag {x : Nibble} (b : Byte) (c : Bool) (hx : f.reg x = true) (hvf : f.reg 15 = true) :
    Frame f s (s.writeWithFlag x b c) := by
  refine frame_withV (v := (s.writeWithFlag x b c).v) fun r hr => ?_
  rw [← writeWithFlag_eq, readV_writeWithFlag, if_neg (ne_of_true_of_false hvf hr),
    if_neg (ne_of_true_of_false hx hr)]

theorem frame_loadRegisters {x : Nibble} (h : ∀ r : Nibble, r.toNat ≤ x.toNat → f.reg r = true) :
    Frame f s (s.loadRegisters x) := by
  obtain ⟨v, hv⟩ := loadRegisters_eq s x
  rw [hv]
  refine frame_withV fun r hr => ?_
  rw [← hv, readV_loadRegisters, if_neg fun hle => nomatch (h r hle).symm.trans hr]

theorem frame_setPc (w : Word16) : Frame f s (s.setPc w) := { frame_refl f s with }

theorem frame_skipIf (c : Bool) : Frame f s (s.skipIf c) := by
  rw [skipIf_eq]
  exact frame_setPc _

theorem frame_setIndex (w : Word16) (h : f.index = true) : Frame f s (s.setIndex w) :=
  { frame_refl f s with index := fun hi => nomatch h.symm.trans hi }

theorem frame_setDelay (b : Byte) (h : f.delay = true) : Frame f s (s.setDelay b) :=
  { frame_refl f s with delay := fun hd => nomatch h.symm.trans hd }

theorem frame_setSound (b : Byte) (h : f.sound = true) : Frame f s (s.setSound b) :=
  { frame_refl f s with sound := fun hs => nomatch h.symm.trans hs }

theorem frame_setScreen (g : Screen) (h : f.screen = true) : Frame f s (s.setScreen g) :=
  { frame_refl f s with screen := fun hs => nomatch h.symm.trans hs }

theorem frame_consumeDraw (h : f.draws = true) : Frame f s s.consumeDraw :=
  { frame_refl f s with draws := fun hd => nomatch h.symm.trans hd }

theorem frame_writeBytes (a : Nat) (bs : List Byte) (h : ∀ b, a ≤ b → b < a + bs.length → f.byte b = true) :
    Frame f s (s.setMem (Memory.writeBytes s.mem a bs)) :=
  { frame_refl f s with
    bytes := fun b hb => Memory.read_writeBytes_outside bs s.mem a b (by
      by_contra hin
      exact nomatch (h b (by omega) (by omega)).symm.trans hb) }

theorem Frame.trans (h : Frame f s s') (h' : Frame f s' t) : Frame f s t where
  regs r hr := (h'.regs r hr).trans (h.regs r hr)
  index hf := (h'.index hf).trans (h.index hf)
  sp hf := (h'.sp hf).trans (h.sp hf)
  slots k hk hf := (h'.slots k hk hf).trans (h.slots k hk hf)
  delay hf := (h'.delay hf).trans (h.delay hf)
  sound hf := (h'.sound hf).trans (h.sound hf)
  bytes a ha := (h'.bytes a ha).trans (h.bytes a ha)
  screen hf := (h'.screen hf).trans (h.screen hf)
  keys := h'.keys.trans h.keys
  fault := h'.fault.trans h.fault
  faultPc := h'.faultPc.trans h.faultPc
  faultInfo := h'.faultInfo.trans h.faultInfo
  running := h'.running.trans h.running
  romLoaded := h'.romLoaded.trans h.romLoaded
  draws hf := (h'.draws hf).trans (h.draws hf)

/-! ## Fault entry and the operations that may fault -/

theorem Frame.withLatchOf (h : Frame f s t) : Frame f s (t.withLatchOf s) :=
  { h with fault := rfl, faultPc := rfl, faultInfo := rfl, running := rfl }

theorem frame_latch (c : FaultCode) (p info : Word16) : Frame f s ((s.latch c p info).withLatchOf s) :=
  { frame_refl f s with }

theorem frame_guarded {len : Nat} (hs' : Frame f s s') (h : s.guarded len s' = .next t) :
    Frame f s (t.withLatchOf s) := by
  obtain ⟨-, rfl⟩ | ⟨-, rfl⟩ := guarded_cases h
  · exact frame_latch ..
  · exact hs'.withLatchOf

theorem frame_execRet {ign : Byte} (hf : f.sp = true) (h : execRet ign s = .next t) :
    Frame f s (t.withLatchOf s) := by
  unfold execRet at h
  by_cases hsp : 0 < s.sp.val
  · rw [pop_some hsp] at h
    cases h
    exact { frame_refl f s with sp := fun hsp' => nomatch hf.symm.trans hsp' }
  · rw [pop_empty (by omega)] at h
    cases h
    exact frame_latch ..

theorem frame_execCall {nnn : Addr12} (hf : f.sp = true) (hslot : f.slot s.sp.val = true)
    (h : execCall nnn s = .next t) : Frame f s (t.withLatchOf s) := by
  unfold execCall at h
  by_cases hsp : s.sp.val < 16
  · rw [push_room _ hsp] at h
    cases h
    exact { frame_refl f s with
      sp := fun hsp' => nomatch hf.symm.trans hsp'
      slots := fun k hk hs => Vector.getElem_set_ne hsp hk (ne_of_true_of_false hslot hs).symm }
  · rw [push_full _ (by omega)] at h
    cases h
    exact frame_latch ..

theorem frame_execLdVxK {x : Nibble} (hf : f.reg x = true) (h : execLdVxK x s = .next t) : Frame f s t := by
  unfold execLdVxK at h
  cases hk : s.firstKey with
  | some k => rw [hk] at h; cases h; exact frame_writeV _ hf
  | none => rw [hk] at h; cases h; exact frame_setPc _

end

/-! ## The execute phase and the step -/

/-- An execute phase changes at most PC, the latch, RUNNING and its footprint. -/
theorem exec_frame {i : Instr} {s t : State} (h : exec i s = .next t) :
    Frame (footprint s i) s (t.withLatchOf s) := by
  cases i with
  | cls => cases h; exact (frame_setScreen _ rfl).withLatchOf
  | ret => exact frame_execRet rfl h
  | call => exact frame_execCall rfl (beq_self_eq_true _) h
  | ldImm | addImm | ldReg | orReg | andReg | xorReg | ldVxDT =>
    cases h; exact (frame_writeV _ (beq_self_eq_true _)).withLatchOf
  | ldVxK => exact (frame_execLdVxK (beq_self_eq_true _) h).withLatchOf
  | addReg | subReg | subnReg | shr | shl =>
    cases h; exact (frame_writeWithFlag _ _ (by simp [footprint]) (by simp [footprint])).withLatchOf
  | rnd =>
    cases h; exact ((frame_writeV _ (beq_self_eq_true _)).trans (frame_consumeDraw rfl)).withLatchOf
  | drw => exact frame_guarded ((frame_setScreen _ rfl).trans (frame_writeV _ rfl)) h
  | ldI | addIVx | ldFVx => cases h; exact (frame_setIndex _ rfl).withLatchOf
  | ldDTVx => cases h; exact (frame_setDelay _ rfl).withLatchOf
  | ldSTVx => cases h; exact (frame_setSound _ rfl).withLatchOf
  | ldBVx x =>
    refine frame_guarded (frame_writeBytes _ _ fun a hlo hhi => ?_) h
    have hlen : (bcdBytes (s.readV x)).length = 3 := rfl
    exact decide_eq_true ⟨hlo, by rw [hlen, State.dataAddress] at hhi; omega⟩
  | ldMemVx x =>
    refine frame_guarded (frame_writeBytes _ _ fun a hlo hhi => ?_) h
    have hlen : ((registersUpTo x).map s.readV).length = x.toNat + 1 := by simp [registersUpTo]
    exact decide_eq_true ⟨hlo, by rw [hlen, State.dataAddress] at hhi; omega⟩
  | ldVxMem => exact frame_guarded (frame_loadRegisters fun r hr => decide_eq_true hr) h
  | seImm | sneImm | seReg | sneReg | skp | sknp => cases h; exact (frame_skipIf _).withLatchOf
  | jp | jpV0 => cases h; exact (frame_setPc _).withLatchOf
  | nop0 | nop8 | nopE | nopF => cases h; exact (frame_refl _ _).withLatchOf

/-- A step changes at most PC, the latch, RUNNING, the timers and the footprint of the fetched instruction. -/
theorem step_frame {s t : State} (h : step s = .next t) :
    Frame { footprint s (decode s.fetch) with delay := true, sound := true } s (t.withLatchOf s) := by
  obtain ⟨-, rfl⟩ | ⟨-, u, hexec, rfl⟩ := step_cases h
  · exact frame_refl _ _
  · have hfoot : footprint s.beginCycle (decode s.fetch) = footprint s (decode s.fetch) := by
      cases decode s.fetch <;> rfl
    have hu := exec_frame hexec
    rw [hfoot] at hu
    rw [endCycle_eq]
    exact { hu with
      delay := nofun, sound := nofun, fault := rfl, faultPc := rfl, faultInfo := rfl, running := rfl }

/-! ## Which instructions have a piece of state in their footprint -/

theorem footprint_screen (s : State) (i : Instr) :
    (footprint s i).screen = true ↔ (∃ ign, i = .cls ign) ∨ ∃ x y n, i = .drw x y n := by
  cases i <;> simp [footprint]

theorem footprint_index (s : State) (i : Instr) :
    (footprint s i).index = true ↔ (∃ nnn, i = .ldI nnn) ∨ (∃ x, i = .addIVx x) ∨ ∃ x, i = .ldFVx x := by
  cases i <;> simp [footprint]

theorem footprint_sp (s : State) (i : Instr) :
    (footprint s i).sp = true ↔ (∃ nnn, i = .call nnn) ∨ ∃ ign, i = .ret ign := by
  cases i <;> simp [footprint]

theorem footprint_slot (s : State) (i : Instr) (k : Nat) :
    (footprint s i).slot k = true ↔ k = s.sp.val ∧ ∃ nnn, i = .call nnn := by
  cases i <;> simp [footprint]

/-- Settles O52: what a step changed lies in the footprint of the instruction it ran. -/
theorem writersOfEachPieceOfState : Obligations.WritersOfEachPieceOfState := by
  intro s t h
  have hstep := step_frame h
  refine ⟨fun hne => ?_, hstep.keys, fun hne => ?_, fun k hk hne => ?_, fun hne => ?_⟩
  · exact (footprint_screen ..).1 (Bool.of_not_eq_false fun hf => hne (hstep.screen hf))
  · exact (footprint_index ..).1 (Bool.of_not_eq_false fun hf => hne (hstep.index hf))
  · exact (footprint_slot ..).1 (Bool.of_not_eq_false fun hf => hne (hstep.slots k hk hf))
  · exact (footprint_sp ..).1 (Bool.of_not_eq_false fun hf => hne (hstep.sp hf))

/-! ## VF (R21) -/

theorem footprint_reg_vf {s : State} {i : Instr} (hw : writesFlag i = false) (hx : xField i ≠ some 15) :
    (footprint s i).reg 15 = false := by
  cases i with
  | addReg | subReg | subnReg | shr | shl | drw => cases hw
  | ldImm | addImm | ldReg | orReg | andReg | xorReg | ldVxDT | ldVxK | rnd =>
    exact beq_false_of_ne fun h => hx (congrArg some h.symm)
  | ldVxMem x =>
    have hne : x ≠ 15 := fun h => hx (congrArg some h)
    exact decide_eq_false (by bv_omega)
  | _ => rfl

/-- A flag writer that does not fault leaves a flag in VF. -/
theorem exec_readV_vf {i : Instr} {s t : State} (hw : writesFlag i = true) (hf : faultOf i s = none)
    (h : exec i s = .next t) : ∃ c, t.readV 15 = flagByte c := by
  cases i with
  | addReg | subReg | subnReg | shr | shl => cases h; exact ⟨_, readV_writeWithFlag ..⟩
  | drw x y n =>
    have hin : ¬ (0 < n.toNat ∧ 0xFFF < s.i.toNat + (n.toNat - 1)) := by
      intro hout
      rw [faultOf, if_pos (by omega)] at hf
      cases hf
    rw [exec, execDrw, guarded_inRange _ hin] at h
    cases h
    exact ⟨_, readV_setFlag ..⟩
  | _ => cases hw

/-- Settles O33. -/
theorem onlyFlagWritersWriteVF : Obligations.OnlyFlagWritersWriteVF := by
  intro i s t h
  refine ⟨fun hw hx => (exec_frame h).regs 15 (footprint_reg_vf hw hx), fun hw hf => ?_⟩
  obtain ⟨c, hc⟩ := exec_readV_vf hw hf h
  rw [hc]
  cases c
  · exact .inl rfl
  · exact .inr rfl

/-! ## Reset memory and the host's key write -/

/-- Settles O18: a closed fact about the 80 bytes of `Config.font` that reset memory reads as. -/
theorem resetFontBytes : Obligations.ResetFontBytes := by
  unfold Obligations.ResetFontBytes
  decide

/-- Settles O58. -/
theorem writeKeysWritesKeysOnly : Obligations.WriteKeysWritesKeysOnly := by
  intro ks s k
  refine ⟨?_, rfl⟩
  have hk : k.toNat < ks.toList.length := by simpa using k.isLt
  rw [← List.getElem_eq_getD (h := hk), Vector.getElem_toList]
  rfl

end Sys2Proof.Machine
end

section
/-! # Memory: what is stored, fetched and left alone

The opcode that a cycle fetches, as arithmetic on the two bytes at PC; which bytes a register-dump and a placed opcode
leave behind; who writes memory at all; and that the canonical form of a memory is determined by its reads. -/

namespace Sys2Proof.Machine

/-! ## Fetch (R52, D7) -/

theorem wordOfBytes_toNat (hi lo : Byte) : (wordOfBytes hi lo).toNat = 256 * hi.toNat + lo.toNat := by
  rw [wordOfBytes, append_toNat]
  omega

/-- Settles O7. -/
theorem fetchIsBigEndianAndWraps : Obligations.FetchIsBigEndianAndWraps :=
  fun _ => wordOfBytes_toNat _ _

/-- The fetch of a PC that selects the address `a` and is not at the end of memory. -/
theorem fetch_withPc {s : State} {p : Word16} {a : Nat} (hp : p.toNat % 4096 = a) (ha : a + 1 ≤ 0xFFF) :
    State.fetch { s with pc := p } = s.readByte a ++ s.readByte (a + 1) := by
  have hnext : (p.toNat + 1) % 4096 = a + 1 := by omega
  unfold State.fetch wordOfBytes
  simp only [Config.memSize, hp, hnext]
  rfl

/-! ## The opcode placed by the host (log entry 8) -/

theorem frame_write {f : Footprint} {s : State} {a : Nat} (v : Byte) (h : f.byte a = true) :
    Frame f s (s.setMem (Memory.write s.mem a v)) :=
  frame_writeBytes a [v] fun b hlo hhi => by
    obtain rfl : b = a := by rw [List.length_singleton] at hhi; omega
    exact h

theorem frame_placeOpcode (s : State) (w : Word16) :
    Frame { byte := fun a => a == s.pc.toNat % 4096 || a == (s.pc.toNat + 1) % 4096 } s (s.placeOpcode w) :=
  (frame_write _ (by simp)).trans (frame_write _ (by simp))

/-- Settles O41. -/
theorem placedWordIsFetched : Obligations.PlacedWordIsFetched := by
  intro s w hw
  refine ⟨?_, rfl, frame_placeOpcode s _⟩
  rw [State.withFetchWord, fetch_placeOpcode, BitVec.toNat_ofNat]
  omega

/-! ## The register-dump (R184) -/

/-- Each dumped register is read back at its place from I on. -/
theorem readByte_dump {s : State} {x k : Nibble} (hx : s.i.toNat + x.toNat ≤ 0xFFF) (hk : k.toNat ≤ x.toNat) :
    (s.setMem (Memory.writeBytes s.mem (s.dataAddress 0) ((registersUpTo x).map s.readV))).readByte
      (s.i.toNat + k.toNat) = s.readV k := by
  have hlen : ((registersUpTo x).map s.readV).length = x.toNat + 1 := by simp [registersUpTo]
  rw [readByte_setMem, State.dataAddress, Nat.add_zero,
    Memory.read_writeBytes _ _ _ _ (by omega) (by rw [hlen, Config.memSize]; omega)]
  simp [registersUpTo]

/-- Within memory, a register-dump completes and stores its registers from I on. -/
theorem exec_ldMemVx_inRange {s : State} {x : Nibble} (hx : s.i.toNat + x.toNat ≤ 0xFFF) :
    exec (.ldMemVx x) s =
      .next (s.setMem (Memory.writeBytes s.mem (s.dataAddress 0) ((registersUpTo x).map s.readV))) :=
  guarded_inRange _ (by omega)

/-- Settles O40: V[0] and V[1] are the bytes at I and I + 1 after the dump, and PC selects I. -/
theorem storedBytesAreFetched : Obligations.StoredBytesAreFetched := by
  intro s p hi hp
  have hx : s.i.toNat + (1 : Nibble).toNat ≤ 0xFFF := hi
  have hV0 := readByte_dump hx (k := 0) (by decide)
  have hV1 := readByte_dump hx (k := 1) (by decide)
  exact ⟨_, exec_ldMemVx_inRange hx, (fetch_withPc hp hi).trans (congrArg₂ (· ++ ·) hV0 hV1)⟩

/-! ## The writers of memory (R56) -/

theorem footprint_byte (s : State) (i : Instr) (a : Nat) :
    (footprint s i).byte a = true ↔
      (∃ x, i = .ldBVx x ∧ s.i.toNat ≤ a ∧ a ≤ s.i.toNat + 2) ∨
        ∃ x, i = .ldMemVx x ∧ s.i.toNat ≤ a ∧ a ≤ s.i.toNat + x.toNat := by
  cases i <;> simp [footprint]

/-- Settles O53: a byte that a step changed lies in the footprint of the instruction it ran. -/
theorem memoryWrittenOnlyByStores : Obligations.MemoryWrittenOnlyByStores := by
  intro s t a h hne
  exact (footprint_byte ..).1 (Bool.of_not_eq_false fun hf => hne ((step_frame h).bytes a hf))

/-! ## The canonical form (log entry 7) -/

/-- Below its first entry, a canonical memory reads as after reset. -/
theorem Memory.read_lt_of_wfFrom {m : Memory} {lo b : Nat} (hm : Memory.wfFrom lo m = true) (hb : b < lo) :
    Memory.read m b = Memory.resetByte b := by
  induction m generalizing lo with
  | nil => rfl
  | cons c m ih =>
    obtain ⟨a, v⟩ := c
    obtain ⟨hlo, -, -, htail⟩ := (Memory.wfFrom_cons ..).1 hm
    rw [Memory.read, if_neg (by omega), ih htail (by omega)]

/-- A canonical memory with an entry at `a` reads otherwise there than one whose entries lie above `a`. -/
theorem Memory.read_head_ne_of_wfFrom {m m' : Memory} {lo a : Nat} {v : Byte}
    (hm : Memory.wfFrom lo ((a, v) :: m) = true) (hm' : Memory.wfFrom (a + 1) m' = true) :
    Memory.read ((a, v) :: m) a ≠ Memory.read m' a := by
  obtain ⟨-, -, hv, -⟩ := (Memory.wfFrom_cons ..).1 hm
  rwa [Memory.read, if_pos rfl, Memory.read_lt_of_wfFrom hm' (Nat.lt_succ_self a)]

/-- With one first entry, memories that read alike have tails that read alike. -/
theorem Memory.read_tail_eq {m m' : Memory} {a : Nat} {v : Byte} (hm : Memory.wfFrom (a + 1) m = true)
    (hm' : Memory.wfFrom (a + 1) m' = true)
    (h : ∀ b, Memory.read ((a, v) :: m) b = Memory.read ((a, v) :: m') b) (b : Nat) :
    Memory.read m b = Memory.read m' b := by
  by_cases hb : b = a
  · rw [Memory.read_lt_of_wfFrom hm (by omega), Memory.read_lt_of_wfFrom hm' (by omega)]
  · simpa only [Memory.read, if_neg hb] using h b

theorem Memory.eq_of_read_eq {m m' : Memory} {lo : Nat} (hm : Memory.wfFrom lo m = true)
    (hm' : Memory.wfFrom lo m' = true) (h : ∀ a, Memory.read m a = Memory.read m' a) : m = m' := by
  induction m generalizing m' lo with
  | nil =>
    cases m' with
    | nil => rfl
    | cons c m' => exact absurd (h c.1).symm (Memory.read_head_ne_of_wfFrom hm' rfl)
  | cons c m ih =>
    obtain ⟨a, v⟩ := c
    obtain ⟨-, ha, hv, hmt⟩ := (Memory.wfFrom_cons ..).1 hm
    cases m' with
    | nil => exact absurd (h a) (Memory.read_head_ne_of_wfFrom hm rfl)
    | cons c' m' =>
      obtain ⟨b, w⟩ := c'
      obtain ⟨-, hb, hw, hmt'⟩ := (Memory.wfFrom_cons ..).1 hm'
      obtain hab | rfl | hba := Nat.lt_trichotomy a b
      · exact absurd (h a) (Memory.read_head_ne_of_wfFrom hm
          ((Memory.wfFrom_cons ..).2 ⟨hab, hb, hw, hmt'⟩))
      · obtain rfl : v = w := by simpa [Memory.read] using h a
        rw [ih hmt hmt' (Memory.read_tail_eq hmt hmt' h)]
      · exact absurd (h b).symm (Memory.read_head_ne_of_wfFrom hm'
          ((Memory.wfFrom_cons ..).2 ⟨hba, ha, hv, hmt⟩))

/-- Settles O42. -/
theorem canonicalMemoriesAreEqual : Obligations.CanonicalMemoriesAreEqual :=
  fun _ _ => Memory.eq_of_read_eq

end Sys2Proof.Machine
end

section
/-! # Decode and encode (30_encoding.md R80 to R91)

A word is determined by its family, its selector and its fields, so decode and encode undo each other both ways. The bits
that select a word's row are fixed by its family alone, so a word that agrees on them is of the same row. -/

namespace Sys2Proof

/-! ## The selectors of the no-op rows, as numbers (R86 to R89, R116) -/

theorem not_mappedSel0_iff {n : Nibble} :
    (!mappedSel0.contains n) = true ↔ n.toNat ≠ 0x0 ∧ n.toNat ≠ 0xE := by
  simp [mappedSel0, ← BitVec.toNat_inj]

theorem not_mappedSel8_iff {n : Nibble} :
    (!mappedSel8.contains n) = true ↔ n.toNat ≠ 0x0 ∧ n.toNat ≠ 0x1 ∧ n.toNat ≠ 0x2 ∧ n.toNat ≠ 0x3 ∧
      n.toNat ≠ 0x4 ∧ n.toNat ≠ 0x5 ∧ n.toNat ≠ 0x6 ∧ n.toNat ≠ 0x7 ∧ n.toNat ≠ 0xE := by
  simp [mappedSel8, ← BitVec.toNat_inj]

theorem not_mappedSelE_iff {n : Nibble} :
    (!mappedSelE.contains n) = true ↔ n.toNat ≠ 0xE ∧ n.toNat ≠ 0x1 := by
  simp [mappedSelE, ← BitVec.toNat_inj]

theorem not_mappedSelF_iff {kk : Byte} :
    (!mappedSelF.contains kk) = true ↔ kk.toNat ≠ 0x07 ∧ kk.toNat ≠ 0x0A ∧ kk.toNat ≠ 0x15 ∧
      kk.toNat ≠ 0x18 ∧ kk.toNat ≠ 0x1E ∧ kk.toNat ≠ 0x29 ∧ kk.toNat ≠ 0x33 ∧ kk.toNat ≠ 0x55 ∧
      kk.toNat ≠ 0x65 := by
  simp [mappedSelF, ← BitVec.toNat_inj]

/-! ## Decoding an encoded instruction -/

/-- One case per word format and family: the fields read back from the format pick the row and its operands. -/
theorem decode_encode {i : Instr} (h : i.wellFormed = true) : decode (encode i) = i := by
  cases i with
  | cls | ret => simp [encode, decode, decode0, opFam_fmtZ, opMid_fmtZ, opN_fmtZ]
  | jp | call | ldI | jpV0 => simp [encode, decode, opFam_fmtA, opNNN_fmtA]
  | seImm | sneImm | ldImm | addImm | rnd => simp [encode, decode, opFam_fmtXI, opX_fmtXI, opKK_fmtXI]
  | seReg | sneReg | drw => simp [encode, decode, opFam_fmtXYN, opX_fmtXYN, opY_fmtXYN, opN_fmtXYN]
  | ldReg | orReg | andReg | xorReg | addReg | subReg | subnReg | shr | shl =>
    simp [encode, decode, decode8, opFam_fmtXYN, opX_fmtXYN, opY_fmtXYN, opN_fmtXYN]
  | skp | sknp => simp [encode, decode, decodeE, opFam_fmtXYN, opX_fmtXYN, opY_fmtXYN, opN_fmtXYN]
  | ldVxDT | ldVxK | ldDTVx | ldSTVx | addIVx | ldFVx | ldBVx | ldMemVx | ldVxMem =>
    simp [encode, decode, decodeF, opFam_fmtXI, opX_fmtXI, opKK_fmtXI]
  | nop0 => simp [encode, decode, decode0, opFam_fmtZ, opMid_fmtZ, opN_fmtZ, not_mappedSel0_iff.1 h]
  | nop8 => simp [encode, decode, decode8, opFam_fmtZ, opMid_fmtZ, opN_fmtZ, not_mappedSel8_iff.1 h]
  | nopE => simp [encode, decode, decodeE, opFam_fmtZ, opMid_fmtZ, opN_fmtZ, not_mappedSelE_iff.1 h]
  | nopF => simp [encode, decode, decodeF, opFam_fmtXI, opX_fmtXI, opKK_fmtXI, not_mappedSelF_iff.1 h]

/-- Settles O2. -/
theorem decodeOfEncode : Obligations.DecodeOfEncode := by
  intro i h
  refine ⟨decode_encode h, fun rest => ?_⟩
  rw [encodeBytes, decodeBytes_bytesOfWord, decode_encode h]

/-! ## Words rebuilt from a family, a selector and the other fields -/

section
variable {w : Word16} {f n : Nibble} {kk : Byte}

theorem fmtA_of_fam (hf : (opFam w).toNat = f.toNat) : fmtA f (opNNN w) = w := by
  rw [← BitVec.eq_of_toNat_eq hf, fmtA_fields]

theorem fmtXI_of_fam (hf : (opFam w).toNat = f.toNat) : fmtXI f (opX w) (opKK w) = w := by
  rw [← BitVec.eq_of_toNat_eq hf, fmtXI_fields]

theorem fmtXI_of_sel (hf : (opFam w).toNat = f.toNat) (hk : (opKK w).toNat = kk.toNat) :
    fmtXI f (opX w) kk = w := by
  rw [← BitVec.eq_of_toNat_eq hk, fmtXI_of_fam hf]

theorem fmtXYN_of_fam (hf : (opFam w).toNat = f.toNat) : fmtXYN f (opX w) (opY w) (opN w) = w := by
  rw [← BitVec.eq_of_toNat_eq hf, fmtXYN_fields]

theorem fmtXYN_of_sel (hf : (opFam w).toNat = f.toNat) (hn : (opN w).toNat = n.toNat) :
    fmtXYN f (opX w) (opY w) n = w := by
  rw [← BitVec.eq_of_toNat_eq hn, fmtXYN_of_fam hf]

theorem fmtZ_of_fam (hf : (opFam w).toNat = f.toNat) : fmtZ f (opMid w) (opN w) = w := by
  rw [← BitVec.eq_of_toNat_eq hf, fmtZ_fields]

theorem fmtZ_of_sel (hf : (opFam w).toNat = f.toNat) (hn : (opN w).toNat = n.toNat) :
    fmtZ f (opMid w) n = w := by
  rw [← BitVec.eq_of_toNat_eq hn, fmtZ_of_fam hf]

end

/-! ## Encoding a decoded word, family by family -/

/-- `i` is the well-formed instruction whose word is `w`. -/
def IsInstrOf (w : Word16) (i : Instr) : Prop :=
  i.wellFormed = true ∧ encode i = w

section
variable {w : Word16}

theorem isInstrOf_decode0 (hf : (opFam w).toNat = 0x0) : IsInstrOf w (decode0 w) := by
  unfold decode0
  split
  case h_3 h0 hE => exact ⟨not_mappedSel0_iff.2 ⟨h0, hE⟩, fmtZ_of_fam hf⟩
  all_goals exact ⟨rfl, fmtZ_of_sel hf ‹_›⟩

theorem isInstrOf_decode8 (hf : (opFam w).toNat = 0x8) : IsInstrOf w (decode8 w) := by
  unfold decode8
  split
  case h_10 h0 h1 h2 h3 h4 h5 h6 h7 hE =>
    exact ⟨not_mappedSel8_iff.2 ⟨h0, h1, h2, h3, h4, h5, h6, h7, hE⟩, fmtZ_of_fam hf⟩
  all_goals exact ⟨rfl, fmtXYN_of_sel hf ‹_›⟩

theorem isInstrOf_decodeE (hf : (opFam w).toNat = 0xE) : IsInstrOf w (decodeE w) := by
  unfold decodeE
  split
  case h_3 hE h1 => exact ⟨not_mappedSelE_iff.2 ⟨hE, h1⟩, fmtZ_of_fam hf⟩
  all_goals exact ⟨rfl, fmtXYN_of_sel hf ‹_›⟩

theorem isInstrOf_decodeF (hf : (opFam w).toNat = 0xF) : IsInstrOf w (decodeF w) := by
  unfold decodeF
  split
  case h_10 h07 h0A h15 h18 h1E h29 h33 h55 h65 =>
    exact ⟨not_mappedSelF_iff.2 ⟨h07, h0A, h15, h18, h1E, h29, h33, h55, h65⟩, fmtXI_of_fam hf⟩
  all_goals exact ⟨rfl, fmtXI_of_sel hf ‹_›⟩

end

/-- The arms of `decode` in the order of the families; the last is family 0xF. -/
theorem isInstrOf_decode (w : Word16) : IsInstrOf w (decode w) := by
  unfold decode
  split
  next hf => exact isInstrOf_decode0 hf
  next hf => exact ⟨rfl, fmtA_of_fam hf⟩
  next hf => exact ⟨rfl, fmtA_of_fam hf⟩
  next hf => exact ⟨rfl, fmtXI_of_fam hf⟩
  next hf => exact ⟨rfl, fmtXI_of_fam hf⟩
  next hf => exact ⟨rfl, fmtXYN_of_fam hf⟩
  next hf => exact ⟨rfl, fmtXI_of_fam hf⟩
  next hf => exact ⟨rfl, fmtXI_of_fam hf⟩
  next hf => exact isInstrOf_decode8 hf
  next hf => exact ⟨rfl, fmtXYN_of_fam hf⟩
  next hf => exact ⟨rfl, fmtA_of_fam hf⟩
  next hf => exact ⟨rfl, fmtA_of_fam hf⟩
  next hf => exact ⟨rfl, fmtXI_of_fam hf⟩
  next hf => exact ⟨rfl, fmtXYN_of_fam hf⟩
  next hf => exact isInstrOf_decodeE hf
  next => exact isInstrOf_decodeF (by simp only [imp_false] at *; have := (opFam w).isLt; omega)

/-- Settles O3. -/
theorem encodeOfDecode : Obligations.EncodeOfDecode :=
  isInstrOf_decode

theorem encode_decode (w : Word16) : encode (decode w) = w :=
  (isInstrOf_decode w).2

/-! ## The row of a word (R81) -/

open Laws.TableRow in
/-- The laws of the table's rows together, in the order of the constructors. -/
theorem encode_and_selectMask (i : Instr) : encode i &&& selectMask i = selectPattern i :=
  Instr.rec (motive := Statement) cls ret jp call seImm sneImm seReg ldImm addImm ldReg orReg andReg xorReg
    addReg subReg subnReg shr shl sneReg ldI jpV0 rnd drw skp sknp ldVxDT ldVxK ldDTVx ldSTVx addIVx ldFVx
    ldBVx ldMemVx ldVxMem nop0 nop8 nopE nopF i

theorem and_selectMask_decode (w : Word16) : w &&& selectMask (decode w) = selectPattern (decode w) := by
  simpa only [encode_decode] using encode_and_selectMask (decode w)

/-- The mask of a family's rows: which bits select (R81), by the families as R85 lists them. -/
def familyMask (fam : Nibble) : Word16 :=
  match fam.toNat with
  | 0x0 | 0x8 | 0xE => 0xF00F
  | 0x1 | 0x2 | 0x3 | 0x4 | 0x5 | 0x6 | 0x7 | 0x9 | 0xA | 0xB | 0xC | 0xD => 0xF000
  | _ => 0xF0FF

theorem selectMask_eq_familyMask (i : Instr) : selectMask i = familyMask (opFam (encode i)) := by
  cases i with
  | jp | call | ldI | jpV0 => rw [encode, opFam_fmtA]; rfl
  | cls | ret | nop0 | nop8 | nopE => rw [encode, opFam_fmtZ]; rfl
  | seReg | ldReg | orReg | andReg | xorReg | addReg | subReg | subnReg | shr | shl | sneReg | drw | skp
  | sknp => rw [encode, opFam_fmtXYN]; rfl
  | _ => rw [encode, opFam_fmtXI]; rfl

theorem selectMask_decode (w : Word16) : selectMask (decode w) = familyMask (opFam w) := by
  rw [selectMask_eq_familyMask, encode_decode]

/-- Every family's mask holds the family bits. -/
theorem opFam_familyMask (f : Nibble) : opFam (familyMask f) = BitVec.allOnes 4 := by
  unfold familyMask
  split <;> rfl

theorem opFam_and_familyMask (w : Word16) (f : Nibble) : opFam (w &&& familyMask f) = opFam w := by
  have h : opFam (w &&& familyMask f) = opFam w &&& opFam (familyMask f) := BitVec.extractLsb'_and
  rw [h, opFam_familyMask, BitVec.and_allOnes]

/-- Settles O4. Agreeing on the row's bits, the two words agree on the family, which fixes the mask. -/
theorem onlySelectingBitsSelect : Obligations.OnlySelectingBitsSelect := by
  intro w
  refine ⟨and_selectMask_decode w, fun w' h => ?_⟩
  have hfam : opFam w' = opFam w := by
    rw [← opFam_and_familyMask w' (opFam w), ← selectMask_decode, h, ← and_selectMask_decode,
      selectMask_decode, opFam_and_familyMask]
  have hmask : selectMask (decode w') = selectMask (decode w) := by
    rw [selectMask_decode, selectMask_decode, hfam]
  refine ⟨hmask, ?_⟩
  rw [← and_selectMask_decode w', hmask, h]

/-! ## Words of the opcode tables, and the bits no meaning reads -/

/-- Settles O1: twenty-one closed decodings. -/
theorem writtenWordsDecode : Obligations.WrittenWordsDecode := by
  unfold Obligations.WrittenWordsDecode
  decide

open Machine in
/-- A return with a non-empty stack does not look at its opcode's ignored bits. -/
theorem exec_ret_ignores {s : State} (h : 0 < s.sp.val) (a b : Byte) : exec (.ret a) s = exec (.ret b) s := by
  simp only [exec, execRet, pop_some h]

/-- Settles O5: all but the return have a meaning that does not take the ignored bits at all. -/
theorem ignoredBitsHaveNoEffect : Obligations.IgnoredBitsHaveNoEffect :=
  fun _ a b _ _ _ _ => ⟨rfl, fun h => exec_ret_ignores h a b, rfl, rfl, rfl, rfl, rfl, rfl⟩

end Sys2Proof
end

section
/-! # The cycle (40_cycle.md R110 to R116)

With no fault latched a step ends in one of two ways, as the table of R240 says of the fetched instruction: its execute phase
faults, and the step writes the latch alone; or it completes, with PC where the table of R112 puts it, and the timers decay
from what it left. -/

namespace Sys2Proof.Machine

/-! ## Operands as the table of R112 spells them -/

theorem zext12_eq (nnn : Addr12) : zext12 nnn = BitVec.ofNat 16 nnn.toNat :=
  word_eq_ofNat (BitVec.toNat_setWidth_of_le (by decide))

theorem zext8_eq (b : Byte) : zext8 b = BitVec.ofNat 16 b.toNat :=
  word_eq_ofNat (BitVec.toNat_setWidth_of_le (by decide))

theorem lowNibble_eq (b : Byte) : lowNibble b = BitVec.ofNat 4 b.toNat :=
  BitVec.eq_of_toNat_eq (by simp [lowNibble])

theorem any_keys_iff (s : State) : s.keys.toList.any id = true ↔ ∃ k, s.readKey k = true := by
  rw [List.any_eq_true]
  constructor
  · rintro ⟨b, hb, htrue⟩
    obtain ⟨k, hk, rfl⟩ := Vector.getElem_of_mem (Vector.mem_toList_iff.1 hb)
    exact ⟨BitVec.ofNatLT k hk, htrue⟩
  · rintro ⟨k, hk⟩
    exact ⟨_, Vector.mem_toList_iff.2 (Vector.getElem_mem _), hk⟩

/-! ## The fault table of R240 and the execute phase -/

/-- The fault of an access of `len` bytes from I on, if it leaves memory (R54). -/
def State.rangeFault (s : State) (len : Nat) : Option (FaultCode × Word16) :=
  if s.outOfRange len then some (.addressOutOfRange, s.offendingAddress) else none

section
variable {s s' : State} {i : Instr} {len : Nat} {c : FaultCode} {info : Word16}

theorem rangeFault_eq {p : Prop} [Decidable p] (h : p ↔ 0 < len ∧ 0xFFF < s.i.toNat + (len - 1)) :
    (if p then some (.addressOutOfRange, BitVec.ofNat 16 (max s.i.toNat 0x1000)) else none) = s.rangeFault len := by
  rw [State.rangeFault, offendingAddress_eq]
  exact if_congr (h.trans (outOfRange_iff s len).symm) rfl rfl

theorem faultOf_drw (s : State) (x y n : Nibble) : faultOf (.drw x y n) s = s.rangeFault n.toNat :=
  rangeFault_eq (by omega)

theorem faultOf_ldBVx (s : State) (x : Nibble) : faultOf (.ldBVx x) s = s.rangeFault 3 :=
  rangeFault_eq (by omega)

theorem faultOf_ldMemVx (s : State) (x : Nibble) : faultOf (.ldMemVx x) s = s.rangeFault (x.toNat + 1) :=
  rangeFault_eq (by omega)

theorem faultOf_ldVxMem (s : State) (x : Nibble) : faultOf (.ldVxMem x) s = s.rangeFault (x.toNat + 1) :=
  rangeFault_eq (by omega)

theorem faultOf_ret_eq_none (s : State) (ign : Byte) : faultOf (.ret ign) s = none ↔ 0 < s.sp.val := by
  simp [faultOf, Nat.pos_iff_ne_zero]

theorem faultOf_call_eq_none (s : State) (nnn : Addr12) : faultOf (.call nnn) s = none ↔ s.sp.val < 16 := by
  have hle : s.sp.val ≤ 16 := Nat.le_of_lt_succ s.sp.isLt
  simp [faultOf, hle.lt_iff_ne]

/-- The advance of PC and RUNNING do not bear on the table: it may be read before the cycle or in its execute phase. -/
theorem faultOf_beginCycle (i : Instr) (s : State) : faultOf i s.beginCycle = faultOf i s := by
  cases i <;> rfl

theorem guarded_of_rangeFault_some (h : s.rangeFault len = some (c, info)) : s.guarded len s' = raise c info s := by
  unfold State.rangeFault at h
  unfold State.guarded
  split at h
  next hout => cases h; rw [if_pos hout]
  next => cases h

theorem guarded_of_rangeFault_none (h : s.rangeFault len = none) : s.guarded len s' = .next s' := by
  unfold State.rangeFault at h
  unfold State.guarded
  split at h
  next => cases h
  next hin => rw [if_neg hin]

/-- Where the table has a fault, the execute phase takes it. -/
theorem exec_of_faultOf_some (h : faultOf i s = some (c, info)) : exec i s = raise c info s := by
  cases i with
  | ret ign =>
    rw [faultOf] at h
    split at h
    next hsp => cases h; rw [exec, execRet, pop_empty hsp]
    next => cases h
  | call nnn =>
    rw [faultOf] at h
    split at h
    next hsp => cases h; rw [exec, execCall, push_full _ hsp]
    next => cases h
  | drw => exact guarded_of_rangeFault_some ((faultOf_drw ..).symm.trans h)
  | ldBVx => exact guarded_of_rangeFault_some ((faultOf_ldBVx ..).symm.trans h)
  | ldMemVx => exact guarded_of_rangeFault_some ((faultOf_ldMemVx ..).symm.trans h)
  | ldVxMem => exact guarded_of_rangeFault_some ((faultOf_ldVxMem ..).symm.trans h)
  | _ => cases h

theorem faultOf_code_ne_noFault (h : faultOf i s = some (c, info)) : c ≠ .noFault := by
  rintro rfl
  cases i with
  | ret | call | drw | ldBVx | ldMemVx | ldVxMem => simp [faultOf] at h
  | _ => cases h

end

/-! ## A completed execute phase: PC by the table of R112, and the latch untouched -/

/-- The execute phase of the cycle begun in `s` completes with PC at `p`, and leaves the latch and RUNNING as they were. -/
def CompletesAt (s : State) (p : Word16) (a : Answer) : Prop :=
  ∃ u, a = .next u ∧ u.pc = p ∧ u.withLatchOf s.beginCycle = u

theorem ite_bnot {α : Type} (c : Bool) (a b : α) : (if !c then a else b) = if c then b else a := by
  cases c <;> rfl

section
variable {s u : State} {p : Word16}

theorem completesAt_guarded {len : Nat} (hrange : s.beginCycle.rangeFault len = none) (hpc : u.pc = p)
    (hlatch : u.withLatchOf s.beginCycle = u) : CompletesAt s p (s.beginCycle.guarded len u) :=
  ⟨u, guarded_of_rangeFault_none hrange, hpc, hlatch⟩

theorem completesAt_skipIf {c : Bool} (hp : p = if c then s.pc + 4 else s.pc + 2) :
    CompletesAt s p (.next (s.beginCycle.skipIf c)) := by
  subst hp
  rw [skipIf_eq]
  refine ⟨_, rfl, ?_, rfl⟩
  rw [setPc_pc, beginCycle_pc, BitVec.add_assoc]
  rfl

theorem completesAt_ret {ign : Byte} (hf : faultOf (.ret ign) s = none) :
    CompletesAt s (s.stack.toList.getD (s.sp.val - 1) 0) (execRet ign s.beginCycle) := by
  have hsp : 0 < s.sp.val := (faultOf_ret_eq_none s ign).1 hf
  have hlen : s.sp.val - 1 < s.stack.toList.length := by rw [Vector.length_toList]; omega
  rw [execRet, pop_some (s := s.beginCycle) hsp, ← List.getElem_eq_getD (h := hlen), Vector.getElem_toList]
  exact ⟨_, rfl, rfl, rfl⟩

theorem completesAt_call {nnn : Addr12} (hf : faultOf (.call nnn) s = none) :
    CompletesAt s (BitVec.ofNat 16 nnn.toNat) (execCall nnn s.beginCycle) := by
  have hsp : s.sp.val < 16 := (faultOf_call_eq_none s nnn).1 hf
  rw [execCall, push_room (s := s.beginCycle) _ hsp]
  exact ⟨_, rfl, zext12_eq nnn, rfl⟩

theorem completesAt_ldVxK (s : State) (x : Nibble) :
    CompletesAt s (if s.keys.toList.any id then s.pc + 2 else s.pc) (execLdVxK x s.beginCycle) := by
  have hkey : s.beginCycle.firstKey = s.firstKey := rfl
  rw [execLdVxK, hkey]
  cases hk : s.firstKey with
  | none =>
    rw [firstKey_none] at hk
    rw [if_neg (by rw [any_keys_iff]; simp [hk])]
    exact ⟨_, rfl, sub_two_add_two s.pc, rfl⟩
  | some k =>
    rw [if_pos ((any_keys_iff s).2 ⟨k, List.find?_some hk⟩)]
    exact ⟨_, rfl, rfl, rfl⟩

/-- Where the table of R240 has no fault, the execute phase completes at R112's PC. -/
theorem exec_completesAt {i : Instr} (hf : faultOf i s = none) : CompletesAt s (pcAfter i s) (exec i s.beginCycle) := by
  have hbegun : faultOf i s.beginCycle = none := (faultOf_beginCycle i s).trans hf
  cases i with
  | jp nnn => exact ⟨_, rfl, zext12_eq nnn, rfl⟩
  | jpV0 nnn =>
    refine ⟨_, rfl, ?_, rfl⟩
    rw [setPc_pc, zext8_eq, zext12_eq, ← BitVec.ofNat_add, readV_beginCycle]
    rfl
  | ret => exact completesAt_ret hf
  | call => exact completesAt_call hf
  | seImm | seReg | sneImm | sneReg => exact completesAt_skipIf (by simp [pcAfter])
  | skp => exact completesAt_skipIf (by rw [lowNibble_eq]; rfl)
  | sknp => exact completesAt_skipIf (by rw [lowNibble_eq, ite_bnot]; rfl)
  | ldVxK x => exact completesAt_ldVxK s x
  | drw => exact completesAt_guarded ((faultOf_drw ..).symm.trans hbegun) rfl rfl
  | ldBVx => exact completesAt_guarded ((faultOf_ldBVx ..).symm.trans hbegun) rfl rfl
  | ldMemVx => exact completesAt_guarded ((faultOf_ldMemVx ..).symm.trans hbegun) rfl rfl
  | ldVxMem x =>
    obtain ⟨v, hload⟩ := loadRegisters_eq s.beginCycle x
    exact completesAt_guarded ((faultOf_ldVxMem ..).symm.trans hbegun) (by rw [hload]; rfl) (by rw [hload]; rfl)
  | _ => exact ⟨_, rfl, rfl, rfl⟩

end

/-! ## The two ends of a step with no fault latched (R115) -/

section
variable {s : State}

theorem step_of_faultOf_some {c : FaultCode} {info : Word16} (hs : s.fault = .noFault)
    (h : faultOf (decode s.fetch) s = some (c, info)) : step s = .next (s.faulted c s.pc info) := by
  rw [← faultOf_beginCycle] at h
  have hlatch : s.beginCycle.latch c s.beginCycle.instrPc info = s.faulted c s.pc info :=
    congrArg (s.faulted c · info) (sub_two_add_two s.pc)
  calc step s
      = finish (raise c info s.beginCycle) := by rw [step_running hs, exec_of_faultOf_some h]
    _ = .next (s.beginCycle.latch c s.beginCycle.instrPc info) :=
        congrArg _ (endCycle_faulted (faultOf_code_ne_noFault h))
    _ = .next (s.faulted c s.pc info) := by rw [hlatch]

theorem step_of_exec_clear {u : State} (hs : s.fault = .noFault) (hexec : exec (decode s.fetch) s.beginCycle = .next u)
    (hu : u.fault = .noFault) : step s = .next u.decayTimers := by
  rw [step_running hs, hexec, finish, endCycle_clear hu]

/-- What the execute phase left of a step that does not fault: the step ends on it with the timers decayed. -/
theorem step_of_faultOf_none (hs : s.fault = .noFault) (hf : faultOf (decode s.fetch) s = none) :
    ∃ u, exec (decode s.fetch) s.beginCycle = .next u ∧ u.pc = pcAfter (decode s.fetch) s ∧
      u.withLatchOf s.beginCycle = u ∧ step s = .next u.decayTimers := by
  obtain ⟨u, hexec, hpc, hlatch⟩ := exec_completesAt hf
  have hclear : u.fault = .noFault := by rw [← hlatch]; exact hs
  exact ⟨u, hexec, hpc, hlatch, step_of_exec_clear hs hexec hclear⟩

/-- Settles O11. -/
theorem pcAtEndOfCycle : Obligations.PcAtEndOfCycle := by
  intro s
  refine ⟨rfl, fun hs hf => ?_⟩
  obtain ⟨u, -, hpc, -, hstep⟩ := step_of_faultOf_none hs hf
  exact ⟨_, hstep, hpc⟩

/-- Settles O6: the fetched bytes decode to `i`, and the two cases are those of the end of the cycle. -/
theorem stepRunsDecodedInstruction : Obligations.StepRunsDecodedInstruction := by
  intro s i hs _ hbytes
  have hdecode : decode s.fetch = i := congrArg Prod.fst (Except.ok.inj hbytes)
  subst hdecode
  refine ⟨fun u hexec hu => step_of_exec_clear hs hexec hu, fun u hexec hu => ?_⟩
  calc step s
      = finish (.next u) := by rw [step_running hs]; exact congrArg finish hexec
    _ = .next u := congrArg _ (endCycle_faulted hu)

end

/-! ## The timers (R114, D21) -/

section
variable {s u : State} {i : Instr}

theorem footprint_delay (s : State) (i : Instr) : (footprint s i).delay = true ↔ ∃ x, i = .ldDTVx x := by
  cases i <;> simp [footprint]

theorem footprint_sound (s : State) (i : Instr) : (footprint s i).sound = true ↔ ∃ x, i = .ldSTVx x := by
  cases i <;> simp [footprint]

theorem exec_keeps_delay (h : exec i s = .next u) (hi : ∀ x, i ≠ .ldDTVx x) : u.dt = s.dt :=
  (exec_frame h).delay (Bool.eq_false_iff.2 fun hd => not_exists.2 hi ((footprint_delay s i).1 hd))

theorem exec_keeps_sound (h : exec i s = .next u) (hi : ∀ x, i ≠ .ldSTVx x) : u.st = s.st :=
  (exec_frame h).sound (Bool.eq_false_iff.2 fun hd => not_exists.2 hi ((footprint_sound s i).1 hd))

/-- Settles O12: a completed cycle decays what the execute phase left in the timers; fault entry leaves both alone. -/
theorem timersAtEndOfCycle : Obligations.TimersAtEndOfCycle := by
  intro s
  refine ⟨fun hs hf => ?_, fun h => ?_⟩
  · obtain ⟨u, hexec, -, -, hstep⟩ := step_of_faultOf_none hs hf
    refine ⟨_, hstep, fun x hi => ?_, fun hi => ?_, fun x hi => ?_, fun hi => ?_⟩
    · rw [hi] at hexec
      cases hexec
      exact decayed_toNat _
    · rw [decayTimers_dt, decayed_toNat, exec_keeps_delay hexec hi, beginCycle_dt]
    · rw [hi] at hexec
      cases hexec
      exact decayed_toNat _
    · rw [decayTimers_st, decayed_toNat, exec_keeps_sound hexec hi, beginCycle_st]
  · by_cases hs : s.fault = .noFault
    · obtain ⟨⟨c, info⟩, hf⟩ := Option.ne_none_iff_exists'.1 (h.resolve_left (not_not_intro hs))
      exact ⟨_, step_of_faultOf_some hs hf, rfl, rfl⟩
    · exact ⟨s, step_halted hs, rfl, rfl⟩

end

/-! ## The delay timer over a run (R26, R114) -/

theorem coreRun_succ_iff (M : Host.Core) (k : Nat) (s t : M.State) :
    M.run (k + 1) s = .next t ↔ ∃ u, M.step s = .next u ∧ M.run k u = .next t := by
  rw [Host.Core.run]
  cases M.step s <;> simp

section
variable {s t : State}

theorem run_succ {k : Nat} : core.run (k + 1) s = .next t ↔ ∃ u, step s = .next u ∧ core.run k u = .next t :=
  coreRun_succ_iff core k s t

/-- A step that ends with no fault latched began with none, and ran an instruction that does not fault. -/
theorem step_clear (h : step s = .next t) (ht : t.fault = .noFault) :
    s.fault = .noFault ∧ faultOf (decode s.fetch) s = none := by
  have hs : s.fault = .noFault := by
    by_contra hs
    rw [step_halted hs] at h
    cases h
    exact hs ht
  refine ⟨hs, ?_⟩
  cases hf : faultOf (decode s.fetch) s with
  | none => rfl
  | some f =>
    rw [step_of_faultOf_some hs hf] at h
    cases h
    exact absurd ht (faultOf_code_ne_noFault hf)

theorem run_clear {k : Nat} (h : core.run k s = .next t) (ht : t.fault = .noFault) : s.fault = .noFault := by
  induction k generalizing s with
  | zero => cases h; exact ht
  | succ k ih =>
    obtain ⟨u, hstep, hrun⟩ := run_succ.1 h
    exact (step_clear hstep (ih hrun)).1

theorem step_delay (h : step s = .next t) (ht : t.fault = .noFault) (hi : ∀ x, decode s.fetch ≠ .ldDTVx x) :
    t.dt.toNat = s.dt.toNat - 1 := by
  obtain ⟨hs, hf⟩ := step_clear h ht
  obtain ⟨t', hstep, -, hdelay, -⟩ := (timersAtEndOfCycle s).1 hs hf
  cases h.symm.trans hstep
  exact hdelay hi

/-- Settles O13, by induction on the steps: a run that ends with no fault latched had none after any step. -/
theorem delayTimerCountsCompletedCycles : Obligations.DelayTimerCountsCompletedCycles := by
  intro k
  induction k with
  | zero => intro s t h _ _; cases h; rfl
  | succ k ih =>
    intro s t h ht hi
    obtain ⟨u, hstep, hrun⟩ := run_succ.1 h
    have hfirst : u.dt.toNat = s.dt.toNat - 1 :=
      step_delay hstep (run_clear hrun ht) (hi 0 s (Nat.succ_pos k) rfl)
    have hrest : t.dt.toNat = u.dt.toNat - k :=
      ih u t hrun ht fun j v hj hv => hi (j + 1) v (by omega) (run_succ.2 ⟨u, hstep, hv⟩)
    omega

end

/-! ## The no-op fallback (R116) -/

theorem opFam_toNat (w : Word16) : (opFam w).toNat = w.toNat / 4096 := by
  have hdiv : w.toNat / 4096 < 16 := Nat.div_lt_of_lt_mul w.isLt
  simpa [opFam, Nat.shiftRight_eq_div_pow] using hdiv

theorem opN_toNat (w : Word16) : (opN w).toNat = w.toNat % 16 := by
  simp [opN]

theorem opKK_toNat (w : Word16) : (opKK w).toNat = w.toNat % 256 := by
  simp [opKK]

theorem decode_eq_of_isInstrOf {w : Word16} {i : Instr} (h : IsInstrOf w i) : decode w = i := by
  obtain ⟨hwf, rfl⟩ := h
  exact decode_encode hwf

section
variable {w : Word16}

theorem decode_unmapped0 (hf : w.toNat / 4096 = 0x0) (hn : w.toNat % 16 ∉ [0x0, 0xE]) :
    decode w = .nop0 (opMid w) (opN w) :=
  decode_eq_of_isInstrOf
    ⟨not_mappedSel0_iff.2 (by simpa [opN_toNat] using hn), fmtZ_of_fam ((opFam_toNat w).trans hf)⟩

theorem decode_unmapped8 (hf : w.toNat / 4096 = 0x8) (hn : w.toNat % 16 ∉ [0, 1, 2, 3, 4, 5, 6, 7, 0xE]) :
    decode w = .nop8 (opMid w) (opN w) :=
  decode_eq_of_isInstrOf
    ⟨not_mappedSel8_iff.2 (by simpa [opN_toNat] using hn), fmtZ_of_fam ((opFam_toNat w).trans hf)⟩

theorem decode_unmappedE (hf : w.toNat / 4096 = 0xE) (hn : w.toNat % 16 ∉ [0xE, 0x1]) :
    decode w = .nopE (opMid w) (opN w) :=
  decode_eq_of_isInstrOf
    ⟨not_mappedSelE_iff.2 (by simpa [opN_toNat] using hn), fmtZ_of_fam ((opFam_toNat w).trans hf)⟩

theorem decode_unmappedF (hf : w.toNat / 4096 = 0xF)
    (hkk : w.toNat % 256 ∉ [0x07, 0x0A, 0x15, 0x18, 0x1E, 0x29, 0x33, 0x55, 0x65]) :
    decode w = .nopF (opX w) (opKK w) :=
  decode_eq_of_isInstrOf
    ⟨not_mappedSelF_iff.2 (by simpa [opKK_toNat] using hkk), fmtXI_of_fam ((opFam_toNat w).trans hf)⟩

end

/-- Settles O51: an unmapped word decodes to the no-op row of its family, whose execute phase changes nothing. -/
theorem unmappedWordsAreNoOps : Obligations.UnmappedWordsAreNoOps := by
  refine ⟨fun _ _ _ _ _ => ⟨rfl, rfl, rfl, rfl⟩, fun s hs hw => ?_⟩
  have hexec : exec (decode s.fetch) s.beginCycle = .next s.beginCycle := by
    obtain ⟨hf, hn⟩ | ⟨hf, hn⟩ | ⟨hf, hn⟩ | ⟨hf, hkk⟩ := hw
    · rw [decode_unmapped0 hf hn]; rfl
    · rw [decode_unmapped8 hf hn]; rfl
    · rw [decode_unmappedE hf hn]; rfl
    · rw [decode_unmappedF hf hkk]; rfl
  exact ⟨_, step_of_exec_clear hs hexec hs, rfl, decayed_toNat _, decayed_toNat _, rfl⟩

end Sys2Proof.Machine
end

section
/-! # Control transfer (41_control_flow.md R130 to R137)

Each execute phase is one write of PC, preceded in CALL and RET by one operation of the stack. What else it leaves alone is
`exec_frame`; the two stack faults are `exec_of_faultOf_some`. -/

namespace Sys2Proof.Machine

/-! ## Words and operands as numbers -/

/-- Decoding a number that is the word of an instruction. -/
theorem decode_ofNat {i : Instr} {k : Nat} (hwf : i.wellFormed = true) (hk : (encode i).toNat = k) :
    decode (BitVec.ofNat 16 k) = i := by
  rw [← word_eq_ofNat hk, decode_encode hwf]

theorem encode_ret_toNat (ign : Byte) : (encode (.ret ign)).toNat = 0x000E + 16 * ign.toNat := by
  have hword : (encode (.ret ign)).toNat = 0 + 16 * ign.toNat + 0x000E := fmtZ_toNat 0x0 ign 0xE
  omega

theorem encode_call_toNat (nnn : Addr12) : (encode (.call nnn)).toNat = 0x2000 + nnn.toNat :=
  fmtA_toNat 0x2 nnn

theorem zext12_toNat (nnn : Addr12) : (zext12 nnn).toNat = nnn.toNat :=
  BitVec.toNat_setWidth_of_le (by decide)

theorem zext8_toNat (b : Byte) : (zext8 b).toNat = b.toNat :=
  BitVec.toNat_setWidth_of_le (by decide)

/-! ## Jumps (R131, R133) -/

/-- Settles O19. -/
theorem jumpLoadsPc : Obligations.JumpLoadsPc :=
  fun nnn _ => ⟨decode_ofNat rfl (fmtA_toNat 0x1 nnn), _, rfl, zext12_toNat nnn, frame_setPc _⟩

/-- A byte and a 12-bit address do not overflow 16 bits, so R133's sum is the true one. -/
theorem zext8_add_zext12_toNat (b : Byte) (nnn : Addr12) : (zext8 b + zext12 nnn).toNat = b.toNat + nnn.toNat := by
  rw [BitVec.toNat_add, zext8_toNat, zext12_toNat]
  omega

/-- Settles O20. -/
theorem jumpWithOffsetAddsV0 : Obligations.JumpWithOffsetAddsV0 :=
  fun nnn s => ⟨decode_ofNat rfl (fmtA_toNat 0xB nnn), _, rfl, zext8_add_zext12_toNat (s.readV 0) nnn, frame_setPc _⟩

/-! ## Skips (R134 to R137) -/

theorem skipIf_pc_toNat (s : State) (c : Bool) :
    (s.skipIf c).pc.toNat = (s.pc.toNat + if c then 2 else 0) % 65536 := by
  cases c with
  | false => exact (Nat.mod_eq_of_lt s.pc.isLt).symm
  | true => exact BitVec.toNat_add s.pc 2

theorem skipIf_beq_pc_toNat (s : State) (a b : Byte) :
    (s.skipIf (a == b)).pc.toNat = (s.pc.toNat + if a.toNat = b.toNat then 2 else 0) % 65536 := by
  simp only [skipIf_pc_toNat, beq_iff_eq, BitVec.toNat_inj]

theorem skipIf_bne_pc_toNat (s : State) (a b : Byte) :
    (s.skipIf (a != b)).pc.toNat = (s.pc.toNat + if a.toNat = b.toNat then 0 else 2) % 65536 := by
  simp only [skipIf_pc_toNat, bne_iff_ne, ite_not, BitVec.toNat_inj]

/-- Settles O24. -/
theorem skipsOnImmediate : Obligations.SkipsOnImmediate :=
  fun x kk s => ⟨decode_ofNat rfl (fmtXI_toNat 0x3 x kk), decode_ofNat rfl (fmtXI_toNat 0x4 x kk),
    ⟨_, rfl, frame_skipIf _, skipIf_beq_pc_toNat s _ _⟩, ⟨_, rfl, frame_skipIf _, skipIf_bne_pc_toNat s _ _⟩⟩

/-- Settles O25. -/
theorem skipsOnRegisters : Obligations.SkipsOnRegisters :=
  fun x y ign s => ⟨decode_ofNat rfl (fmtXYN_toNat 0x5 x y ign), decode_ofNat rfl (fmtXYN_toNat 0x9 x y ign),
    ⟨_, rfl, frame_skipIf _, skipIf_beq_pc_toNat s _ _⟩, ⟨_, rfl, frame_skipIf _, skipIf_bne_pc_toNat s _ _⟩⟩

/-! ## Call and return (R130, R132) -/

section
variable {s : State}

/-- A stack fault's entry (R244), its opcode written as a number. -/
theorem exec_of_stackFault {i : Instr} {c : FaultCode} {k : Nat} (hf : faultOf i s = some (c, encode i))
    (hk : (encode i).toNat = k) : exec i s = .next (s.faulted c (s.pc - 2) (BitVec.ofNat 16 k)) := by
  rw [← word_eq_ofNat hk]
  exact exec_of_faultOf_some hf

theorem exec_call_room (nnn : Addr12) (h : s.sp.val < 16) :
    exec (.call nnn) s = .next { s with
      stack := s.stack.set s.sp.val s.pc h, sp := ⟨s.sp.val + 1, by omega⟩, pc := zext12 nnn } := by
  rw [exec, execCall, push_room _ h]
  rfl

theorem exec_ret_some (ign : Byte) (h : 0 < s.sp.val) :
    exec (.ret ign) s = .next { s with
      sp := ⟨s.sp.val - 1, by omega⟩, pc := s.stack[s.sp.val - 1]'(by omega) } := by
  rw [exec, execRet, pop_some h]
  rfl

/-- Settles O21. -/
theorem callPushesReturnAddress : Obligations.CallPushesReturnAddress := by
  intro nnn s
  refine ⟨decode_ofNat rfl (encode_call_toNat nnn), fun hroom => ?_, fun hfull => ?_⟩
  · have hexec := exec_call_room nnn hroom
    exact ⟨_, hexec, zext12_toNat nnn, rfl, by simp [hroom], exec_frame hexec⟩
  · exact exec_of_stackFault (if_pos hfull) (encode_call_toNat nnn)

/-- Settles O22. -/
theorem returnPopsAddress : Obligations.ReturnPopsAddress := by
  intro ign s
  refine ⟨decode_ofNat rfl (encode_ret_toNat ign), fun hsome => ?_, fun hempty => ?_⟩
  · have hexec := exec_ret_some ign hsome
    have hlt : s.sp.val - 1 < 16 := by omega
    exact ⟨_, hexec, rfl, by simp [hlt], exec_frame hexec⟩
  · exact exec_of_stackFault (if_pos hempty) (encode_ret_toNat ign)

end

/-- Settles O23: the slot that the call wrote is the one that the return reads. -/
theorem returnUndoesCall : Obligations.ReturnUndoesCall := by
  intro nnn ign p s hroom
  obtain ⟨-, hpushes, -⟩ := callPushesReturnAddress nnn s
  obtain ⟨t, hcall, -, hsp, hpushed, -⟩ := hpushes hroom
  have hsome : 0 < t.sp.val := by omega
  have hback : t.sp.val - 1 = s.sp.val := by omega
  obtain ⟨-, hpops, -⟩ := returnPopsAddress ign { t with pc := p }
  obtain ⟨u, hret, hsp', hpopped, -⟩ := hpops hsome
  have hslot : t.stack.toList[s.sp.val]? = some u.pc := by rwa [← hback]
  exact ⟨t, u, hcall, hret, Option.some.inj (hslot.symm.trans hpushed), Fin.ext (hsp'.trans hback)⟩

end Sys2Proof.Machine
end

section
/-! # Register and arithmetic instructions (42_alu.md R150 to R162)

Each execute phase is one write of V[x], in the flag writers followed by the write of VF (R150). The flag computations and
shifts are read as arithmetic on the operands first. -/

namespace Sys2Proof.Machine

/-! ## Words of family 0x8, results and flags as numbers -/

/-- The word of a row of family 0x8, its selector `n` beside the family as the opcode table writes them (R87). -/
theorem fmtXYN_eight_toNat (x y n : Nibble) :
    (fmtXYN 0x8 x y n).toNat = 0x8000 + n.toNat + 256 * x.toNat + 16 * y.toNat := by
  have hword : (fmtXYN 0x8 x y n).toNat = 0x8000 + 256 * x.toNat + 16 * y.toNat + n.toNat := fmtXYN_toNat 0x8 x y n
  omega

section
variable (a b : Byte)

theorem sub_toNat : (a - b).toNat = (a.toNat + 256 - b.toNat) % 256 := by
  rw [BitVec.toNat_sub]
  omega

theorem shiftRight_one_toNat : (a >>> 1).toNat = a.toNat / 2 :=
  (BitVec.toNat_ushiftRight a 1).trans (Nat.shiftRight_eq_div_pow _ 1)

theorem shiftLeft_one_toNat : (a <<< 1).toNat = a.toNat * 2 % 256 := by
  rw [BitVec.toNat_shiftLeft, Nat.shiftLeft_eq]

theorem flagByte_decide_toNat (p : Prop) [Decidable p] : (flagByte (decide p)).toNat = if p then 1 else 0 := by
  simp only [flagByte_toNat, decide_eq_true_eq]

theorem flagByte_getLsbD_toNat (k : Nat) : (flagByte (a.getLsbD k)).toNat = a.toNat / 2 ^ k % 2 := by
  rw [← Nat.toNat_testBit, flagByte_toNat, BitVec.testBit_toNat]
  cases a.getLsbD k <;> rfl

theorem flagByte_lowBitFlag_toNat : (flagByte (lowBitFlag a)).toNat = a.toNat % 2 := by
  rw [lowBitFlag, flagByte_getLsbD_toNat]
  omega

theorem flagByte_highBitFlag_toNat : (flagByte (highBitFlag a)).toNat = a.toNat / 128 := by
  rw [highBitFlag, flagByte_getLsbD_toNat]
  omega

end

/-! ## The loads, ADD Vx, kk, the logic operations and RND: one register, no flag -/

theorem frame_writeV_only {s : State} {x : Nibble} (b : Byte) :
    Frame { reg := fun r => r == x } s (s.writeV x b) :=
  frame_writeV b (beq_self_eq_true x)

/-- Settles O26. -/
theorem loadsWriteOneRegister : Obligations.LoadsWriteOneRegister :=
  fun x y kk s => ⟨decode_ofNat rfl (fmtXI_toNat 0x6 x kk), decode_ofNat rfl (fmtXYN_eight_toNat x y 0x0),
    ⟨_, rfl, readV_writeV_self s x kk, rfl, frame_writeV_only _⟩,
    ⟨_, rfl, readV_writeV_self s x (s.readV y), rfl, frame_writeV_only _⟩⟩

/-- Settles O27: the write wraps modulo 256 as a byte does. -/
theorem addImmediateWraps : Obligations.AddImmediateWraps := by
  intro x kk s
  refine ⟨decode_ofNat rfl (fmtXI_toNat 0x7 x kk), _, rfl, ?_, rfl, frame_writeV_only _⟩
  rw [readV_writeV_self, BitVec.toNat_add]

/-- Settles O28. -/
theorem logicIsBitwise : Obligations.LogicIsBitwise := by
  intro x y s
  refine ⟨decode_ofNat rfl (fmtXYN_eight_toNat x y 0x1), decode_ofNat rfl (fmtXYN_eight_toNat x y 0x2),
    decode_ofNat rfl (fmtXYN_eight_toNat x y 0x3), ⟨_, rfl, rfl, frame_writeV_only _, fun b _ => ?_⟩,
    ⟨_, rfl, rfl, frame_writeV_only _, fun b _ => ?_⟩, ⟨_, rfl, rfl, frame_writeV_only _, fun b _ => ?_⟩⟩
  · rw [readV_writeV_self, BitVec.getLsbD_or]
  · rw [readV_writeV_self, BitVec.getLsbD_and]
  · rw [readV_writeV_self, BitVec.getLsbD_xor]

/-- Settles O32. -/
theorem randomAndMasksDraw : Obligations.RandomAndMasksDraw := by
  intro x kk s
  refine ⟨decode_ofNat rfl (fmtXI_toNat 0xC x kk), _, rfl, rfl, rfl, fun b _ => ?_,
    (frame_writeV _ (beq_self_eq_true x)).trans (frame_consumeDraw rfl)⟩
  rw [readV_consumeDraw, readV_writeV_self, BitVec.getLsbD_and, State.drawByte]

/-! ## The flag writers: V[x], then VF (R150) -/

/-- An execute phase that writes `b` to V[x] and then the flag `c`, these two being the numbers `m` and `n`. With x = 15
the flag remains. -/
theorem exec_writeWithFlag {i : Instr} {s : State} {x : Nibble} {b : Byte} {c : Bool} {m n : Nat}
    (hexec : exec i s = .next (s.writeWithFlag x b c)) (hb : b.toNat = m) (hc : (flagByte c).toNat = n) :
    ∃ t, exec i s = .next t ∧ t.pc = s.pc ∧ (x ≠ 15 → (t.readV x).toNat = m) ∧ (t.readV 15).toNat = n ∧
      Frame { reg := fun r => r == x || r == 15 } s t := by
  refine ⟨_, hexec, rfl, fun hx => ?_, ?_, frame_writeWithFlag b c (by simp) (by simp)⟩
  · rw [readV_writeWithFlag, if_neg hx, if_pos rfl, hb]
  · rw [readV_writeWithFlag, if_pos rfl, hc]

/-- Settles O29. -/
theorem addRegistersSetsCarry : Obligations.AddRegistersSetsCarry :=
  fun x y _ => ⟨decode_ofNat rfl (fmtXYN_eight_toNat x y 0x4),
    exec_writeWithFlag rfl (BitVec.toNat_add _ _) (flagByte_decide_toNat _)⟩

/-- Settles O30. -/
theorem subtractSetsStrictGreater : Obligations.SubtractSetsStrictGreater :=
  fun x y _ => ⟨decode_ofNat rfl (fmtXYN_eight_toNat x y 0x5), decode_ofNat rfl (fmtXYN_eight_toNat x y 0x7),
    exec_writeWithFlag rfl (sub_toNat _ _) (flagByte_decide_toNat _),
    exec_writeWithFlag rfl (sub_toNat _ _) (flagByte_decide_toNat _)⟩

/-- Settles O31. -/
theorem shiftsSetBitShiftedOut : Obligations.ShiftsSetBitShiftedOut :=
  fun x ign _ => ⟨decode_ofNat rfl (fmtXYN_eight_toNat x ign 0x6), decode_ofNat rfl (fmtXYN_eight_toNat x ign 0xE),
    exec_writeWithFlag rfl (shiftRight_one_toNat _) (flagByte_lowBitFlag_toNat _),
    exec_writeWithFlag rfl (shiftLeft_one_toNat _) (flagByte_highBitFlag_toNat _)⟩

end Sys2Proof.Machine
end

section
/-! # Index register and memory instructions (43_index_memory.md R180 to R185)

Three of them are one write of I. The two stores are the same write of a list of bytes from I on, the register-load its
counterpart on the register file; these three check their whole range first (R54), and `exec_of_faultOf_some` says what
happens when it leaves memory. -/

namespace Sys2Proof.Machine

/-! ## Words of family 0xF and index values as numbers -/

/-- The word of a row of family 0xF, its selector `kk` beside the family as the opcode table writes them (R89). -/
theorem fmtXI_fifteen_toNat (x : Nibble) (kk : Byte) :
    (fmtXI 0xF x kk).toNat = 0xF000 + kk.toNat + 256 * x.toNat := by
  have hword : (fmtXI 0xF x kk).toNat = 0xF000 + 256 * x.toNat + kk.toNat := fmtXI_toNat 0xF x kk
  omega

theorem add_zext8_toNat (w : Word16) (b : Byte) : (w + zext8 b).toNat = (w.toNat + b.toNat) % 65536 := by
  rw [BitVec.toNat_add, zext8_toNat]

theorem lowNibble_toNat (b : Byte) : (lowNibble b).toNat = b.toNat % 16 := by
  rw [lowNibble_eq, BitVec.toNat_ofNat]

/-- The last glyph starts at 0x9B, so R182's sum does not overflow. -/
theorem glyphAddress_toNat (d : Nibble) : (glyphAddress d).toNat = 0x0050 + 5 * d.toNat := by
  have hsum : Config.fontBase + Config.glyphBytes * d.toNat = 0x0050 + 5 * d.toNat := rfl
  rw [glyphAddress, BitVec.toNat_ofNat, hsum]
  omega

theorem glyphAddress_lowNibble_toNat (b : Byte) :
    (glyphAddress (lowNibble b)).toNat = 0x0050 + 5 * (b.toNat % 16) := by
  rw [glyphAddress_toNat, lowNibble_toNat]

/-! ## The writes of I (R180 to R182) -/

/-- Settles O34. -/
theorem setIndexLoadsI : Obligations.SetIndexLoadsI :=
  fun nnn _ => ⟨decode_ofNat rfl (fmtA_toNat 0xA nnn), _, rfl, zext12_toNat nnn, rfl, frame_setIndex _ rfl⟩

/-- Settles O35. -/
theorem indexFromRegister : Obligations.IndexFromRegister :=
  fun x s => ⟨decode_ofNat rfl (fmtXI_fifteen_toNat x 0x1E), decode_ofNat rfl (fmtXI_fifteen_toNat x 0x29),
    ⟨_, rfl, rfl, add_zext8_toNat s.i (s.readV x), frame_setIndex _ rfl⟩,
    ⟨_, rfl, rfl, glyphAddress_lowNibble_toNat (s.readV x), frame_setIndex _ rfl⟩⟩

/-! ## The stores (R183, R184): bytes written from I on -/

section
variable {s : State} {bs : List Byte}

theorem readByte_store {k : Nat} (hk : k < bs.length) (hin : s.i.toNat + bs.length ≤ Config.memSize) :
    (s.setMem (Memory.writeBytes s.mem (s.dataAddress 0) bs)).readByte (s.i.toNat + k) = bs[k] :=
  Memory.read_writeBytes bs s.mem s.i.toNat k hk hin

/-- A decimal digit is stored as itself. -/
theorem toNat_readByte_store {k d : Nat} (hk : k < bs.length) (hin : s.i.toNat + bs.length ≤ Config.memSize)
    (hd : d < 10) (hdigit : bs[k] = BitVec.ofNat 8 d) :
    ((s.setMem (Memory.writeBytes s.mem (s.dataAddress 0) bs)).readByte (s.i.toNat + k)).toNat = d := by
  rw [readByte_store hk hin, hdigit, BitVec.toNat_ofNat]
  omega

theorem frame_store {n : Nat} (hlen : bs.length = n) :
    Frame { byte := fun a => s.i.toNat ≤ a && a < s.i.toNat + n } s
      (s.setMem (Memory.writeBytes s.mem (s.dataAddress 0) bs)) := by
  subst hlen
  exact frame_writeBytes s.i.toNat bs fun a hlo hhi => by simp [hlo, hhi]

end

theorem exec_ldBVx_inRange {s : State} (x : Nibble) (hin : s.i.toNat + 2 ≤ 0xFFF) :
    ∃ t, exec (.ldBVx x) s = .next t ∧ t.pc = s.pc ∧
      (t.readByte s.i.toNat).toNat = (s.readV x).toNat / 100 ∧
      (t.readByte (s.i.toNat + 1)).toNat = (s.readV x).toNat / 10 % 10 ∧
      (t.readByte (s.i.toNat + 2)).toNat = (s.readV x).toNat % 10 ∧
      Frame { byte := fun a => s.i.toNat ≤ a && a < s.i.toNat + 3 } s t := by
  have hlen : (bcdBytes (s.readV x)).length = 3 := rfl
  have hmem : s.i.toNat + (bcdBytes (s.readV x)).length ≤ Config.memSize := Nat.succ_le_succ hin
  have hbyte : (s.readV x).toNat < 256 := (s.readV x).isLt
  refine ⟨_, guarded_inRange _ (by omega), rfl, ?_, ?_, ?_, frame_store hlen⟩
  · exact toNat_readByte_store (k := 0) (by omega) hmem (by omega) rfl
  · exact toNat_readByte_store (k := 1) (by omega) hmem (by omega) rfl
  · exact toNat_readByte_store (k := 2) (by omega) hmem (by omega) rfl

/-- Settles O36. That the digits make V[x] again is arithmetic on what they are. -/
theorem storeBcdWritesDigits : Obligations.StoreBcdWritesDigits := by
  intro x s
  refine ⟨decode_ofNat rfl (fmtXI_fifteen_toNat x 0x33), fun hin => ?_, fun hout => exec_of_faultOf_some (if_pos hout)⟩
  obtain ⟨t, hexec, hpc, hundreds, htens, hones, hframe⟩ := exec_ldBVx_inRange x hin
  exact ⟨t, hexec, hpc, hundreds, htens, hones, by omega, hframe⟩

/-- Settles O37. -/
theorem registerDumpStoresRegisters : Obligations.RegisterDumpStoresRegisters := by
  intro x s
  refine ⟨decode_ofNat rfl (fmtXI_fifteen_toNat x 0x55), fun hin => ?_, fun hout => exec_of_faultOf_some (if_pos hout)⟩
  have hlen : ((registersUpTo x).map s.readV).length = x.toNat + 1 := by simp [registersUpTo]
  exact ⟨_, exec_ldMemVx_inRange hin, rfl, fun _ hk => readByte_dump hin hk, frame_store hlen⟩

/-! ## The register-load (R185) -/

/-- Settles O38. -/
theorem registerLoadReadsMemory : Obligations.RegisterLoadReadsMemory := by
  intro x s
  refine ⟨decode_ofNat rfl (fmtXI_fifteen_toNat x 0x65), fun hin => ?_, fun hout => exec_of_faultOf_some (if_pos hout)⟩
  refine ⟨s.loadRegisters x, guarded_inRange _ (by omega), ?_, fun k hk => ?_,
    frame_loadRegisters fun _ hr => decide_eq_true hr⟩
  · obtain ⟨v, hv⟩ := loadRegisters_eq s x
    rw [hv]
  · rw [readV_loadRegisters, if_pos hk]

/-- Settles O39: the load reads the bytes that the dump stored, I and memory being what the dump left. -/
theorem loadUndoesDump : Obligations.LoadUndoesDump := by
  intro x s hin
  obtain ⟨-, hdumps, -⟩ := registerDumpStoresRegisters x s
  obtain ⟨t, hdump, -, hstored, hframe⟩ := hdumps hin
  refine ⟨t, hdump, fun t' hi hmem => ?_⟩
  have hindex : t'.i = s.i := hi.trans (hframe.index rfl)
  obtain ⟨-, hloads, -⟩ := registerLoadReadsMemory x t'
  rw [hindex] at hloads
  obtain ⟨u, hload, -, hloaded, -⟩ := hloads hin
  refine ⟨u, hload, fun k hk => ?_⟩
  calc u.readV k = t'.readByte (s.i.toNat + k.toNat) := hloaded k hk
    _ = t.readByte (s.i.toNat + k.toNat) := congrArg (Memory.read · _) hmem
    _ = s.readV k := hstored k hk

end Sys2Proof.Machine
end

section
/-! # Display instructions (44_display.md R200 to R203)

CLS is one write of the screen. DRW toggles the distinct cells of `State.spriteCells`, which are the pixels that
`State.spriteCovers` names; its double invocation (R203) follows from what one draw does and leaves alone. -/

namespace Sys2Proof.Machine

/-- Settles O43. -/
theorem clearScreenClearsAll : Obligations.ClearScreenClearsAll := by
  intro ign s
  have hword : (encode (.cls ign)).toNat = 0x0000 + 16 * ign.toNat := fmtZ_toNat 0x0 ign 0x0
  exact ⟨decode_ofNat rfl hword, _, rfl, rfl, fun _ _ => get_off _, frame_setScreen _ rfl⟩

/-! ## Pixels and cells (R29) -/

theorem pixel_eq_get (s : State) (px : Fin 64) (py : Fin 32) : s.pixel px py = s.fb.get (screenCell px py) := by
  have hcell : py.val * 64 + px.val = py.val % 32 * 64 + px.val % 64 := by omega
  exact congrArg s.fb.get (Fin.ext hcell)

theorem exists_pixel_of_cell (k : Fin 2048) : ∃ (px : Fin 64) (py : Fin 32), screenCell px py = k := by
  have hcell : k.val / 64 % 32 * 64 + k.val % 64 % 64 = k.val := by omega
  exact ⟨⟨k.val % 64, by omega⟩, ⟨k.val / 64, by omega⟩, Fin.ext hcell⟩

theorem fb_eq_of_pixel_eq {s t : State} (h : ∀ px py, t.pixel px py = s.pixel px py) : t.fb = s.fb := by
  refine screen_ext fun k => ?_
  obtain ⟨px, py, rfl⟩ := exists_pixel_of_cell k
  rw [← pixel_eq_get, ← pixel_eq_get, h]

/-! ## Covered pixels (R201, R202) -/

section
variable {s : State} {vx vy : Byte}

theorem screenCell_mem_spriteCells {n : Nat} {px : Fin 64} {py : Fin 32} :
    screenCell px py ∈ s.spriteCells vx vy n ↔ s.spriteCovers vx vy n px py := by
  simp only [mem_spriteCells, State.spriteCovers, screenCell_inj, Nat.mod_eq_of_lt px.isLt, Nat.mod_eq_of_lt py.isLt]

theorem any_spriteCells_iff {n : Nat} :
    (s.spriteCells vx vy n).any s.fb.get = true ↔
      ∃ px py, s.spriteCovers vx vy n px py ∧ s.pixel px py = true := by
  simp only [List.any_eq_true, ← screenCell_mem_spriteCells, pixel_eq_get]
  constructor
  · rintro ⟨k, hk⟩
    obtain ⟨px, py, rfl⟩ := exists_pixel_of_cell k
    exact ⟨px, py, hk⟩
  · rintro ⟨px, py, hk⟩
    exact ⟨_, hk⟩

/-- The sprite's bytes are all that covering reads of a state. -/
theorem Frame.spriteCovers_iff {f : Footprint} {t : State} {n : Nat} {px : Fin 64} {py : Fin 32} (h : Frame f s t)
    (hindex : f.index = false) (hbyte : ∀ a, f.byte a = false) :
    t.spriteCovers vx vy n px py ↔ s.spriteCovers vx vy n px py := by
  simp only [State.spriteCovers, h.index hindex, h.bytes _ (hbyte _)]

/-! ## One draw (R201) -/

/-- What a DRW that completes answers. -/
def State.drawSprite (s : State) (vx vy : Byte) (n : Nibble) : State :=
  s.drawn (blit s.fb (s.spriteCells vx vy n.toNat))

theorem exec_drw_inRange (x y : Nibble) {n : Nibble} (hin : n.toNat = 0 ∨ s.i.toNat + n.toNat - 1 ≤ 0xFFF) :
    exec (.drw x y n) s = .next (s.drawSprite (s.readV x) (s.readV y) n) :=
  guarded_inRange _ (by omega)

variable {n : Nibble} {px : Fin 64} {py : Fin 32}

theorem pixel_drawSprite :
    (s.drawSprite vx vy n).pixel px py =
      (s.pixel px py ^^ decide (screenCell px py ∈ s.spriteCells vx vy n.toNat)) := by
  rw [pixel_eq_get, pixel_eq_get]
  exact get_blit s.fb (spriteCells_nodup s vx vy n.toNat n.isLt) _

theorem pixel_drawSprite_covered (h : s.spriteCovers vx vy n.toNat px py) :
    (s.drawSprite vx vy n).pixel px py = !s.pixel px py := by
  rw [pixel_drawSprite, decide_eq_true (screenCell_mem_spriteCells.2 h), Bool.xor_true]

theorem pixel_drawSprite_uncovered (h : ¬ s.spriteCovers vx vy n.toNat px py) :
    (s.drawSprite vx vy n).pixel px py = s.pixel px py := by
  rw [pixel_drawSprite, decide_eq_false (mt screenCell_mem_spriteCells.1 h), Bool.xor_false]

theorem readV_vf_drawSprite :
    (s.drawSprite vx vy n).readV 15 = flagByte ((s.spriteCells vx vy n.toNat).any s.fb.get) := by
  rw [← flag_blit s.fb (spriteCells_nodup s vx vy n.toNat n.isLt)]
  exact readV_setFlag ..

end

/-- Settles O44. -/
theorem drawXorsSpriteAndSetsCollision : Obligations.DrawXorsSpriteAndSetsCollision := by
  intro x y n s
  refine ⟨decode_ofNat rfl (fmtXYN_toNat 0xD x y n), fun hin => ?_, fun hout => exec_of_faultOf_some (if_pos hout)⟩
  have hexec := exec_drw_inRange x y hin
  refine ⟨_, hexec, rfl, fun _ _ => pixel_drawSprite_covered, fun _ _ => pixel_drawSprite_uncovered,
    fun hon => ?_, fun hoff => ?_, exec_frame hexec⟩
  · rw [readV_vf_drawSprite, any_spriteCells_iff.2 hon]
    rfl
  · rw [readV_vf_drawSprite, Bool.eq_false_of_not_eq_true (mt any_spriteCells_iff.1 hoff)]
    rfl

/-- Settles O45: the first draw leaves the sprite and its coordinates alone, so the second covers the same pixels and
toggles each of them back. -/
theorem drawTwiceRestoresScreen : Obligations.DrawTwiceRestoresScreen := by
  intro x y n s hx hy hin
  obtain ⟨-, hdraws, -⟩ := drawXorsSpriteAndSetsCollision x y n s
  obtain ⟨t, hfirst, -, htoggled, hkept, -, -, hframe⟩ := hdraws hin
  obtain ⟨-, hdraws', -⟩ := drawXorsSpriteAndSetsCollision x y n t
  rw [hframe.regs x (beq_false_of_ne hx), hframe.regs y (beq_false_of_ne hy), hframe.index rfl] at hdraws'
  simp only [hframe.spriteCovers_iff rfl fun _ => rfl] at hdraws'
  obtain ⟨u, hsecond, -, htoggled', hkept', hflag, hnoFlag, -⟩ := hdraws' hin
  have hpixel : ∀ px py, u.pixel px py = s.pixel px py := by
    intro px py
    by_cases hc : s.spriteCovers (s.readV x) (s.readV y) n.toNat px py
    · rw [htoggled' px py hc, htoggled px py hc, Bool.not_not]
    · rw [hkept' px py hc, hkept px py hc]
  have hcollision : (∃ px py, s.spriteCovers (s.readV x) (s.readV y) n.toNat px py ∧ t.pixel px py = true) ↔
      ∃ px py, s.spriteCovers (s.readV x) (s.readV y) n.toNat px py ∧ s.pixel px py = false :=
    exists_congr fun px => exists_congr fun py => and_congr_right fun hc => by
      rw [htoggled px py hc, Bool.not_eq_true']
  rw [hcollision] at hflag hnoFlag
  refine ⟨t, u, hfirst, hsecond, fb_eq_of_pixel_eq hpixel, fun hone => ?_, hflag⟩
  by_contra hnone
  exact absurd (hone.symm.trans (hnoFlag hnone)) (by decide)

end Sys2Proof.Machine
end

section
/-! # Keypad and timer instructions (45_keypad_timers.md R220 to R225)

The two key skips are `State.skipIf` on one key. LD Vx, K asks for the lowest pressed key, `State.firstKey`: its wait is the
cycle that finds none, and such a cycle leads to another one. The timer loads are one write each. -/

namespace Sys2Proof.Machine

/-! ## The key skips (R220, R221) -/

/-- The word of a row with a selector nibble, the selector beside the family as the opcode table writes them (R88). -/
theorem fmtXYN_toNat_selector_first (f x y n : Nibble) :
    (fmtXYN f x y n).toNat = 4096 * f.toNat + n.toNat + 256 * x.toNat + 16 * y.toNat := by
  have hword := fmtXYN_toNat f x y n
  omega

theorem skipIf_not_pc_toNat (s : State) (c : Bool) :
    (s.skipIf (!c)).pc.toNat = (s.pc.toNat + if c then 0 else 2) % 65536 := by
  rw [skipIf_pc_toNat, ite_bnot]

/-- Settles O46: the nibble that selects the key is `k`. -/
theorem keySkipsTestKey : Obligations.KeySkipsTestKey := by
  intro x ign k s hk
  have hkey : lowNibble (s.readV x) = k := BitVec.eq_of_toNat_eq ((lowNibble_toNat _).trans hk.symm)
  subst hkey
  exact ⟨decode_ofNat rfl (fmtXYN_toNat_selector_first 0xE x ign 0xE),
    decode_ofNat rfl (fmtXYN_toNat_selector_first 0xE x ign 0x1),
    ⟨_, rfl, frame_skipIf _, skipIf_pc_toNat s _⟩, ⟨_, rfl, frame_skipIf _, skipIf_not_pc_toNat s _⟩⟩

/-! ## The lowest pressed key (R222) -/

section
variable {s : State} {x k : Nibble}

theorem firstKey_eq_some (hk : s.readKey k = true) (hlow : ∀ j : Nibble, j.toNat < k.toNat → s.readKey j = false) :
    s.firstKey = some k := by
  have hrange : (List.range 16).find? (s.readKey ∘ BitVec.ofNat 4) = some k.toNat := by
    refine List.find?_range_eq_some.2 ⟨?_, List.mem_range.2 k.isLt, fun j hj => ?_⟩
    · rw [Function.comp_apply, BitVec.ofNat_toNat, BitVec.setWidth_eq, hk]
    · have hjk : (BitVec.ofNat 4 j).toNat < k.toNat := (Nat.mod_le j 16).trans_lt hj
      rw [Function.comp_apply, hlow _ hjk, Bool.not_false]
  rw [State.firstKey, keysAscending, List.find?_map, hrange, Option.map_some, BitVec.ofNat_toNat, BitVec.setWidth_eq]

theorem exec_ldVxK_pressed (x : Nibble) (h : s.firstKey = some k) :
    exec (.ldVxK x) s = .next (s.writeV x (k.setWidth 8)) := by
  rw [exec, execLdVxK, h]

theorem exec_ldVxK_released (x : Nibble) (h : ∀ k, s.readKey k = false) :
    exec (.ldVxK x) s = .next (s.setPc s.instrPc) := by
  rw [exec, execLdVxK, (firstKey_none s).2 h]

theorem instrPc_toNat (s : State) : s.instrPc.toNat = (s.pc.toNat + 65536 - 2) % 65536 := by
  have hsub : s.instrPc.toNat = (65536 - 2 + s.pc.toNat) % 65536 := BitVec.toNat_sub s.pc 2
  omega

/-- Settles O47. -/
theorem waitForKeyTakesLowestKey : Obligations.WaitForKeyTakesLowestKey := by
  intro x s
  refine ⟨decode_ofNat rfl (fmtXI_fifteen_toNat x 0x0A), fun k hk hlow => ?_, fun hnone => ?_⟩
  · refine ⟨_, exec_ldVxK_pressed x (firstKey_eq_some hk hlow), ?_, rfl, frame_writeV_only _⟩
    rw [readV_writeV_self, BitVec.toNat_setWidth_of_le (by decide)]
  · exact ⟨_, exec_ldVxK_released x hnone, instrPc_toNat s, frame_setPc _⟩

/-! ## The wait for a key (R222, R114) -/

/-- One cycle of the wait: PC is back where it was and both timers went down. -/
theorem step_ldVxK_released (hs : s.fault = .noFault) (hdecode : decode s.fetch = .ldVxK x)
    (hnone : ∀ k, s.readKey k = false) :
    step s = .next { s with dt := decayed s.dt, st := decayed s.st, running := true } := by
  have hexec : exec (decode s.fetch) s.beginCycle = .next { s with running := true } := by
    rw [hdecode, exec_ldVxK_released (s := s.beginCycle) x hnone]
    exact congrArg (fun p => Host.Outcome.next { s with pc := p, running := true }) (sub_two_add_two s.pc)
  exact step_of_exec_clear hs hexec hs

end

/-- Settles O48, by induction on the steps: what one cycle of the wait leaves fetches the same instruction, with no key
pressed. -/
theorem keyWaitStallsWhileTimersCount : Obligations.KeyWaitStallsWhileTimersCount := by
  intro n x
  induction n with
  | zero => intro s _ _ _; exact ⟨s, rfl, rfl, rfl, rfl⟩
  | succ n ih =>
    intro s hs hdecode hnone
    obtain ⟨t, hrun, hsame, hdelay, hsound⟩ :=
      ih { s with dt := decayed s.dt, st := decayed s.st, running := true } hs hdecode hnone
    refine ⟨t, run_succ.2 ⟨_, step_ldVxK_released hs hdecode hnone, hrun⟩, hsame, ?_, ?_⟩
    · rw [hdelay, decayed_toNat]; omega
    · rw [hsound, decayed_toNat]; omega

/-! ## The timer loads (R223 to R225) -/

/-- Settles O49: V[x] takes DT in the execute phase, before the decay at the end of the cycle. -/
theorem getDelayTimerReadsBeforeDecay : Obligations.GetDelayTimerReadsBeforeDecay := by
  intro x s
  refine ⟨decode_ofNat rfl (fmtXI_fifteen_toNat x 0x07),
    ⟨_, rfl, readV_writeV_self s x s.dt, rfl, frame_writeV_only _⟩, fun hs hdecode => ?_⟩
  have hexec : exec (decode s.fetch) s.beginCycle = .next (s.beginCycle.writeV x s.dt) := by
    rw [hdecode]
    rfl
  refine ⟨_, step_of_exec_clear hs hexec hs, ?_, decayed_toNat s.dt⟩
  rw [readV_decayTimers, readV_writeV_self]

/-- Settles O50. -/
theorem setTimersFromRegister : Obligations.SetTimersFromRegister :=
  fun x _ => ⟨decode_ofNat rfl (fmtXI_fifteen_toNat x 0x15), decode_ofNat rfl (fmtXI_fifteen_toNat x 0x18),
    ⟨_, rfl, rfl, rfl, frame_setDelay _ rfl⟩, ⟨_, rfl, rfl, rfl, frame_setSound _ rfl⟩⟩

end Sys2Proof.Machine
end

section
/-! # Faults and the invariant (60_exceptions.md R240 to R256)

A step with no fault latched ends as the table of R240 says of the fetched instruction, and a halted one changes nothing. So
the latch of the invariant follows the table, which reads SP and I only; and memory keeps its canonical form because an execute
phase does no more to it than store bytes. -/

namespace Sys2Proof.Machine

/-! ## A halted core (R245, D29) -/

/-- Settles O8, by induction on the steps. -/
theorem haltedCoreNeverChanges : Obligations.HaltedCoreNeverChanges := by
  intro k s hs
  induction k with
  | zero => rfl
  | succ k ih => exact run_succ.2 ⟨s, step_halted hs, ih⟩

section
variable {s t u : State} {i : Instr}

/-! ## Every execute phase ends, with memory in its canonical form (R256) -/

/-- The answer is a next state, with memory in its canonical form if it was so in `s`. -/
def EndsWithMemOk (s : State) (a : Answer) : Prop :=
  ∃ u, a = .next u ∧ (s.memOk → u.memOk)

theorem memOk_writeBytes (a : Nat) (bs : List Byte) (hs : s.memOk) :
    (s.setMem (Memory.writeBytes s.mem a bs)).memOk :=
  Memory.wf_writeBytes bs s.mem a hs

theorem memOk_skipIf (c : Bool) (hs : s.memOk) : (s.skipIf c).memOk := by
  rw [skipIf_eq]
  exact hs

theorem memOk_loadRegisters (x : Nibble) (hs : s.memOk) : (s.loadRegisters x).memOk := by
  obtain ⟨v, hload⟩ := loadRegisters_eq s x
  rw [hload]
  exact hs

theorem memOk_endCycle (hs : s.memOk) : s.endCycle.memOk := by
  rw [endCycle_eq]
  exact hs

theorem endsWithMemOk_ldVxK (s : State) (x : Nibble) : EndsWithMemOk s (exec (.ldVxK x) s) := by
  cases hk : s.firstKey with
  | some k => exact ⟨_, exec_ldVxK_pressed x hk, id⟩
  | none => exact ⟨_, exec_ldVxK_released x ((firstKey_none s).1 hk), id⟩

/-- Fault entry where the table of R240 has a fault; otherwise the instruction's own writes, of which only the two stores
reach memory. -/
theorem exec_endsWithMemOk (i : Instr) (s : State) : EndsWithMemOk s (exec i s) := by
  cases hf : faultOf i s with
  | some f => exact ⟨_, exec_of_faultOf_some hf, id⟩
  | none =>
    cases i with
    | ret ign => exact ⟨_, exec_ret_some ign ((faultOf_ret_eq_none ..).1 hf), id⟩
    | call nnn => exact ⟨_, exec_call_room nnn ((faultOf_call_eq_none ..).1 hf), id⟩
    | ldVxK x => exact endsWithMemOk_ldVxK s x
    | drw => exact ⟨_, guarded_of_rangeFault_none ((faultOf_drw ..).symm.trans hf), id⟩
    | ldBVx =>
      exact ⟨_, guarded_of_rangeFault_none ((faultOf_ldBVx ..).symm.trans hf), memOk_writeBytes _ _⟩
    | ldMemVx =>
      exact ⟨_, guarded_of_rangeFault_none ((faultOf_ldMemVx ..).symm.trans hf), memOk_writeBytes _ _⟩
    | ldVxMem x =>
      exact ⟨_, guarded_of_rangeFault_none ((faultOf_ldVxMem ..).symm.trans hf), memOk_loadRegisters x⟩
    | seImm | sneImm | seReg | sneReg | skp | sknp => exact ⟨_, rfl, memOk_skipIf _⟩
    | _ => exact ⟨_, rfl, id⟩

/-- Settles O9: a halted core's step answers the state itself, any other one what its execute phase answers. -/
theorem everyStepHasANextState : Obligations.EveryStepHasANextState := by
  refine ⟨fun s => ?_, fun i s => ?_⟩
  · by_cases hs : s.fault = .noFault
    · obtain ⟨u, hexec, -⟩ := exec_endsWithMemOk (decode s.fetch) s.beginCycle
      exact ⟨u.endCycle, by rw [step_running hs, hexec, finish]⟩
    · exact ⟨s, step_halted hs⟩
  · obtain ⟨u, hexec, -⟩ := exec_endsWithMemOk i s
    exact ⟨u, hexec⟩

theorem step_memOk (h : step s = .next t) (hs : s.memOk) : t.memOk := by
  obtain ⟨-, rfl⟩ | ⟨-, u, hexec, rfl⟩ := step_cases h
  · exact hs
  · obtain ⟨u', hexec', hmem⟩ := exec_endsWithMemOk (decode s.fetch) s.beginCycle
    cases hexec.symm.trans hexec'
    exact memOk_endCycle (hmem hs)

/-! ## The fault table and the step (R240, R244) -/

/-- A state that keeps the latch and RUNNING of `s`, field by field. -/
theorem latch_of_withLatchOf (h : u.withLatchOf s = u) :
    u.fault = s.fault ∧ u.faultPc = s.faultPc ∧ u.faultInfo = s.faultInfo ∧ u.running = s.running := by
  rw [← h]
  exact ⟨rfl, rfl, rfl, rfl⟩

/-- Settles O10: a fault leaves the state of R244's entry; a completed cycle leaves the latch as the cycle began with it. -/
theorem stepFaultsExactlyByTable : Obligations.StepFaultsExactlyByTable := by
  intro s hs
  refine ⟨fun c info hf => step_of_faultOf_some hs hf, fun hf => ?_⟩
  obtain ⟨u, -, -, hlatch, hstep⟩ := step_of_faultOf_none hs hf
  obtain ⟨hfault, hfaultPc, hfaultInfo, hrunning⟩ := latch_of_withLatchOf hlatch
  exact ⟨_, hstep, hfault.trans hs, hfaultPc, hfaultInfo, hrunning⟩

/-! ## The latch tells the truth (R31, R244, R245) -/

/-- The table of R240 reads SP and I only. -/
theorem faultOf_congr (hsp : t.sp = s.sp) (hi : t.i = s.i) : faultOf i t = faultOf i s := by
  cases i with
  | ret | call => simp only [faultOf, hsp]
  | drw | ldBVx | ldMemVx | ldVxMem => simp only [faultOf, hi]
  | _ => rfl

theorem latchOk_of_clear (hfault : s.fault = .noFault) (hfaultPc : s.faultPc = 0) (hfaultInfo : s.faultInfo = 0) :
    s.latchOk :=
  ⟨fun _ => ⟨hfaultPc, hfaultInfo⟩, fun hne => absurd hfault hne⟩

/-- Fault entry by the table latches the truth: PC, SP, I and memory being as before the step, the table says the same of
the state it leaves. -/
theorem latchOk_faulted {c : FaultCode} {info : Word16} (hf : faultOf (decode s.fetch) s = some (c, info)) :
    (s.faulted c s.pc info).latchOk :=
  ⟨fun hc => absurd hc (faultOf_code_ne_noFault hf),
    fun _ => ⟨rfl, rfl, (faultOf_congr (t := s.faulted c s.pc info) rfl rfl).trans hf⟩⟩

theorem step_latchOk (h : step s = .next t) (hs : s.latchOk) : t.latchOk := by
  by_cases hclear : s.fault = .noFault
  · obtain ⟨hfaults, hcompletes⟩ := stepFaultsExactlyByTable s hclear
    cases hf : faultOf (decode s.fetch) s with
    | some f =>
      cases h.symm.trans (hfaults f.1 f.2 hf)
      exact latchOk_faulted hf
    | none =>
      obtain ⟨t', hstep, hfault, hfaultPc, hfaultInfo, -⟩ := hcompletes hf
      cases h.symm.trans hstep
      obtain ⟨hpc0, hinfo0⟩ := hs.1 hclear
      exact latchOk_of_clear hfault (hfaultPc.trans hpc0) (hfaultInfo.trans hinfo0)
  · cases h.symm.trans (step_halted hclear)
    exact hs

/-- Settles O14. -/
theorem stepKeepsInvariant : Obligations.StepKeepsInvariant :=
  fun _ _ hs h => ⟨step_memOk h hs.mem, step_latchOk h hs.latch⟩

/-! ## The host's moves (R252, R270, R275) -/

theorem driverReset_inv (s : State) : (driverReset s).Inv :=
  ⟨reset_mem_wf, latchOk_of_clear rfl rfl rfl⟩

theorem writeKeys_inv (ks : Vector Bool 16) (hs : s.Inv) : (writeKeys ks s).Inv := by
  obtain ⟨hmem, hclear, hlatched⟩ := hs
  refine ⟨hmem, hclear, fun hne => ?_⟩
  obtain ⟨hrunning, hfaultPc, hf⟩ := hlatched hne
  exact ⟨hrunning, hfaultPc, (faultOf_congr (t := writeKeys ks s) rfl rfl).trans hf⟩

/-- With the invariant, a core that has not run has no fault latched (R32, R244). -/
theorem clear_of_not_running (hs : s.Inv) (h : s.running = false) : s.fault = .noFault := by
  by_contra hne
  obtain ⟨hrunning, -, -⟩ := hs.latch.2 hne
  exact nomatch hrunning.symm.trans h

/-- A ROM load that is not refused: the ROM is stored in a core that has not run, or it is too large and nothing changes. -/
theorem loadRom_cases {bytes : List Byte} {r : LoadReply} (h : loadRom bytes s = .next (r, t)) :
    t = s ∨ (s.running = false ∧
      t = { s with mem := Memory.writeBytes s.mem Config.progBase bytes, romLoaded := true }) := by
  unfold loadRom at h
  split at h
  next => cases h
  next hrunning =>
    split at h
    next => cases h
    next =>
      split at h
      next => cases h; exact .inl rfl
      next => cases h; exact .inr ⟨Bool.eq_false_iff.2 hrunning, rfl⟩

theorem loadRom_inv {bytes : List Byte} {r : LoadReply} (hs : s.Inv) (h : loadRom bytes s = .next (r, t)) : t.Inv := by
  obtain rfl | ⟨hrunning, rfl⟩ := loadRom_cases h
  · exact hs
  · have hclear : s.fault = .noFault := clear_of_not_running hs hrunning
    obtain ⟨hfaultPc, hfaultInfo⟩ := hs.latch.1 hclear
    exact ⟨Memory.wf_writeBytes _ _ _ hs.mem, latchOk_of_clear hclear hfaultPc hfaultInfo⟩

theorem drive_loadRom {bytes : List Byte} (h : drive (.loadRom bytes) s = .next t) :
    ∃ r, loadRom bytes s = .next (r, t) := by
  rw [drive] at h
  split at h
  next r _ hload => cases h; exact ⟨r, hload⟩
  next => cases h
  next => cases h

end

/-- Settles O16. -/
theorem hostMovesKeepInvariant : Obligations.HostMovesKeepInvariant := by
  intro m s t hm hs h
  cases m with
  | reset => cases h; exact driverReset_inv s
  | loadRom bytes =>
    obtain ⟨r, hload⟩ := drive_loadRom h
    exact loadRom_inv hs hload
  | writeKeys ks => cases h; exact writeKeys_inv ks hs
  | step => exact absurd rfl hm

end Sys2Proof.Machine
end

section
/-! # Reset and the ROM load (70_reset_and_hazards.md R270, R271, R275)

Power-on is the host's reset of a core already in the reset state, so each reset value is read off `driverReset` once. The ROM
load has one equation per reply. -/

namespace Sys2Proof.Machine

/-! ## Reset (R270, R271) -/

/-- Power-on is what a host reset of the reset state gives. -/
theorem driverReset_reset : driverReset State.reset = State.reset := rfl

/-- Settles O15. -/
theorem resetHasInvariant : Obligations.ResetHasInvariant := by
  rw [Obligations.ResetHasInvariant, ← driverReset_reset]
  exact driverReset_inv State.reset

theorem Memory.resetByte_outside_font {a : Nat} (h : a < 0x050 ∨ 0x0A0 ≤ a) : Memory.resetByte a = 0 := by
  rw [Memory.resetByte, Config.fontBase, Config.fontSize, if_neg (by omega)]

theorem Memory.resetByte_font {j : Nat} (h : j < 80) : Memory.resetByte (0x050 + j) = Config.font.getD j 0 := by
  rw [Memory.resetByte, Config.fontBase, Config.fontSize, if_pos (by omega), Nat.add_sub_cancel_left]

section
variable (s : State)

theorem driverReset_readV (x : Nibble) : (driverReset s).readV x = 0 :=
  Vector.getElem_replicate x.isLt

theorem driverReset_stack (k : Nat) (h : k < 16) : (driverReset s).stack[k] = 0 :=
  Vector.getElem_replicate h

theorem driverReset_readKey (k : Nibble) : (driverReset s).readKey k = false :=
  Vector.getElem_replicate k.isLt

theorem driverReset_pixel (px : Fin 64) (py : Fin 32) : (driverReset s).pixel px py = false :=
  get_off _

end

/-- Settles O17: the fields that hold a plain value compute. -/
theorem resetValues : Obligations.ResetValues := by
  intro t ht
  obtain ⟨s, rfl⟩ : ∃ s, t = driverReset s :=
    ht.elim (fun h => ⟨State.reset, h.trans driverReset_reset.symm⟩) id
  exact ⟨driverReset_readV s, rfl, rfl, rfl, driverReset_stack s, rfl, rfl,
    fun _ ha => Memory.resetByte_outside_font ha, fun _ hj => Memory.resetByte_font hj,
    driverReset_pixel s, driverReset_readKey s, rfl, rfl, rfl, rfl⟩

/-! ## The ROM load (R275, D20) -/

section
variable {bytes : List Byte} {s : State}

theorem loadRom_afterStart (h : s.running = true) : loadRom bytes s = .refused .romLoadAfterStart := by
  rw [loadRom, if_pos h]

theorem loadRom_again (h : s.running = false) (hl : s.romLoaded = true) :
    loadRom bytes s = .refused .secondRomLoad := by
  rw [loadRom, if_neg (by simp [h]), if_pos hl]

theorem loadRom_tooLarge (h : s.running = false) (hl : s.romLoaded = false)
    (hlen : Config.romMax < bytes.length) : loadRom bytes s = .next (.romTooLarge, s) := by
  rw [loadRom, if_neg (by simp [h]), if_neg (by simp [hl]), if_pos hlen]

theorem loadRom_fits (h : s.running = false) (hl : s.romLoaded = false)
    (hlen : bytes.length ≤ Config.romMax) : loadRom bytes s =
      .next (.ok, { s with mem := Memory.writeBytes s.mem Config.progBase bytes, romLoaded := true }) := by
  rw [loadRom, if_neg (by simp [h]), if_neg (by simp [hl]), if_neg (Nat.not_lt.2 hlen)]

end

/-- Settles O57: a ROM of at most 3584 bytes ends at or below the top of memory, so every byte of it is stored. -/
theorem loadRomContract : Obligations.LoadRomContract := by
  refine fun bytes s => ⟨fun h hl hlen => ?_, loadRom_tooLarge, loadRom_afterStart, loadRom_again⟩
  have hend : Config.progBase + bytes.length ≤ Config.memSize := Nat.add_le_add_left hlen 0x200
  exact ⟨_, loadRom_fits h hl hlen, rfl,
    fun j hj => Memory.read_writeBytes bytes s.mem Config.progBase j hj hend,
    fun a ha => Memory.read_writeBytes_outside bytes s.mem Config.progBase a ha⟩

end Sys2Proof.Machine
end
